-- ==== Sys2Proof/Word.lean ====
section
/-! DEFINITION. The plain data the spec's values are made of: bits, characters, samples, register words. -/

namespace Sys2Proof

/-- A bit, 0 or 1 (00_scope.md R7, R12): `false` is 0 and `true` is 1. -/
abbrev Bit := Bool

/-- A character: an 8-bit code (00_scope.md R11). -/
abbrev Byte := BitVec 8

/-- A 16-bit two's-complement sample (20_memory.md R42). -/
abbrev Sample := BitVec 16

/-- The value of a 32-bit register, and of every register read, zero-extended (20_memory.md R38). -/
abbrev Word32 := BitVec 32

end Sys2Proof
end

