-- ==== Sys2Proof/Syntax.lean ====
section
/-! DEFINITION. The four commands of spec/opcode_table.json (30_encoding.md R55). -/

namespace Sys2Proof

/-- A command of the core, with the operand fields its word carries (30_encoding.md R56, R57, R58). -/
inductive Instr where
  /-- RESOLVE: look up the TrackProfile of track selector `sel` (40_profile.md R69). -/
  | resolve (sel : BitVec 2)
  /-- ENCODE: encode TXT_A into BITS_OUT; it reads neither SEL nor REV (41_encode.md R80). -/
  | encode
  /-- DECODE: decode BITS_IN into TXT_OUT; it reads neither SEL nor REV (42_decode.md R93). -/
  | decode
  /-- SYNTH: synthesize SAMPLES from BITS_IN, with track selector `sel` and reverse-swipe flag `rev`
  (43_synth.md R110). -/
  | synth (sel : BitVec 2) (rev : Bool)
deriving DecidableEq, Repr

end Sys2Proof
end

