-- ==== Sys2Proof/WellFormed.lean ====
section
/-! DEFINITION. Which commands some command word encodes. -/

namespace Sys2Proof

/-- The operand fields are values a legal word can carry: SEL = 0 is reserved for RESOLVE and SYNTH
(30_encoding.md R56, R59). -/
def Instr.wellFormed : Instr → Bool
  | .resolve sel => sel != 0#2
  | .encode => true
  | .decode => true
  | .synth sel _ => sel != 0#2

end Sys2Proof
end

