-- ==== Sys2Proof/Decode.lean ====
section
/-! DEFINITION. The command word: its fields, its decoder, total over all 65536 words, and its encoder
(30_encoding.md R54 to R61). -/

namespace Sys2Proof

/-- OP = CMD[3:0] (30_encoding.md R54). -/
def cmdOp (w : BitVec 16) : BitVec 4 := w.extractLsb' 0 4

/-- SEL = CMD[5:4] (30_encoding.md R54). -/
def cmdSel (w : BitVec 16) : BitVec 2 := w.extractLsb' 4 2

/-- REV = CMD[6] (30_encoding.md R54). -/
def cmdRev (w : BitVec 16) : Bool := w.getLsbD 6

/-- RSV = CMD[15:7] (30_encoding.md R54). -/
def cmdRsv (w : BitVec 16) : BitVec 9 := w.extractLsb' 7 9

/-- Command decode (30_encoding.md R59); `none` is the rule's Illegal, which completes with IllegalCommand. -/
def decodeCmd (w : BitVec 16) : Option Instr :=
  if cmdRsv w ≠ 0#9 then none
  else if cmdOp w = 1#4 then
    if cmdSel w = 0#2 then none else some (.resolve (cmdSel w))
  else if cmdOp w = 2#4 then some .encode
  else if cmdOp w = 3#4 then some .decode
  else if cmdOp w = 4#4 then
    if cmdSel w = 0#2 then none else some (.synth (cmdSel w) (cmdRev w))
  else none

/-- A command word from its fields, RSV = 0, most significant field first (30_encoding.md R54). -/
def cmdWord (rev : Bool) (sel : BitVec 2) (op : BitVec 4) : BitVec 16 :=
  0#9 ++ BitVec.ofBool rev ++ sel ++ op

/-- The command word the host's pseudo-instruction writes for a command, with 0 in the fields the command ignores
(30_encoding.md R63). -/
def encodeCmd : Instr → BitVec 16
  | .resolve sel => cmdWord false sel 1#4
  | .encode => cmdWord false 0#2 2#4
  | .decode => cmdWord false 0#2 3#4
  | .synth sel rev => cmdWord rev sel 4#4

/-- The bits of a command's word that select it: all but the fields it ignores, which are REV for RESOLVE, and SEL
and REV for ENCODE and DECODE (30_encoding.md R60). -/
def Instr.careMask : Instr → BitVec 16
  | .resolve _ => 0xFFBF#16
  | .encode => 0xFF8F#16
  | .decode => 0xFF8F#16
  | .synth _ _ => 0xFFFF#16

/-- What the decoder reads from a word of spec/opcode_table.json: the low `nbits` bits of `w`, written to CMD whole
(30_encoding.md R61: every command word is the 16 bits of one CMD write). A word that does not fit 16 bits is none,
and so are the table's words with SEL = 0 (log 20). -/
def decodeTableWord (nbits w : Nat) : Option Instr :=
  if w % 2 ^ nbits < 65536 then decodeCmd (BitVec.ofNat 16 (w % 2 ^ nbits)) else none

end Sys2Proof
end

