-- ==== Sys2Proof/Config.lean ====
section
/-! DEFINITION. The parameters of the block that the spec leaves to an implementation (00_scope.md R6). -/

namespace Sys2Proof.Config

/-- The parameters a model takes as arguments (00_scope.md R6, 92_eei_decisions.md D5 and D16). They are not
state (10_state.md R14); State carries one value of this type, which no step changes (log 1). -/
structure Params where
  /-- TEXT_CAP: elements of TXT_A, TXT_B and TXT_OUT. -/
  textCap : Nat
  /-- BITS_CAP: elements of BITS_IN and BITS_OUT, and the bound on SYNTH's secondary bitstream. -/
  bitsCap : Nat
  /-- SAMPLES_CAP: elements of SAMPLES. -/
  samplesCap : Nat
  /-- REVERSE_SECONDARY: whether SYNTH reverses a second-track pass (43_synth.md R105). -/
  reverseSecondary : Bool
deriving DecidableEq, Repr

/-- The greatest capacity the spec allows: a length must fit its 32-bit register (00_scope.md R6). -/
def maxCap : Nat := 4294967295

/-- The range the spec gives the parameters: every capacity is at least 1 and at most 2^32 - 1
(00_scope.md R6). -/
def Params.ok (P : Params) : Bool :=
  (1 ≤ P.textCap && P.textCap ≤ maxCap) && (1 ≤ P.bitsCap && P.bitsCap ≤ maxCap) &&
    (1 ≤ P.samplesCap && P.samplesCap ≤ maxCap)

/-- DESIGN CHOICE (log 1, unsafe): the parameters of the machine that `State.reset` describes. Each capacity is the
greatest the spec allows, so that the machine behaves as the source's unbounded sequences (60_exceptions.md R118);
REVERSE_SECONDARY is the spec's default, true (log 2). -/
def defaultParams : Params :=
  { textCap := maxCap, bitsCap := maxCap, samplesCap := maxCap, reverseSecondary := true }

end Sys2Proof.Config
end

