-- ==== Sys2Proof/Machine/State.lean ====
section
/-! DEFINITION. Everything the machine holds (10_state.md R14), as plain data, and its value after reset. -/

namespace Sys2Proof.Machine

/-- The six buffers (10_state.md R27). -/
inductive BufId where
  | txtA | txtB | bitsIn | bitsOut | txtOut | samples
deriving DecidableEq, Repr

/-- The thirteen host registers (10_state.md R15). -/
inductive Reg where
  | cmd | status | errIndex | errChar | pad | spb | prof | txtALen | txtBLen | bitsInLen | bitsOutLen
  | txtOutLen | samplesLen
deriving DecidableEq, Repr

/-- One element of a buffer, as a host read returns it whole (20_memory.md R40). -/
inductive Elem where
  | char (c : Byte)
  | bit (b : Bit)
  | sample (v : Sample)
deriving DecidableEq, Repr

/-- What can come from outside the block next: a host access by register index or by buffer id and element index
(20_memory.md R40), the host's WAIT (30_encoding.md R62), or the reset input (70_reset_and_hazards.md R130).
A written value is a number of any size; the target keeps its low bits (log 13). -/
inductive Input where
  | regRead (i : Nat)
  | regWrite (i v : Nat)
  | bufRead (b k : Nat)
  | bufWrite (b k v : Nat)
  | wait
  | reset
deriving DecidableEq, Repr

/-- What a host read returned: a register zero-extended to 32 bits, or one whole element (20_memory.md R38, R40). -/
inductive Reading where
  | reg (i : Nat) (v : Word32)
  | elem (b k : Nat) (e : Elem)
deriving DecidableEq, Repr

/-- SYNTH's sequencing states (10_state.md R31). -/
inductive Seq where
  | emitPrimary | maybeEmitSecondary | done
deriving DecidableEq, Repr

/-- The internal working state (10_state.md R29 to R33). No rule reads a field of it before the running command has
set it, and the host cannot see it; what it holds between commands is log 6 and log 7. -/
structure Working where
  /-- LRC_ACC, the per-column XOR accumulator (R29). -/
  lrcAcc : List Bit
  /-- PAR_ACC, the parity accumulator (R30). -/
  parAcc : Nat
  /-- AMP, +32767 or -32767 (R32). -/
  amp : Int
  /-- SEQ (R31). -/
  seq : Seq
  /-- PASS_BITS (R31). -/
  passBits : List Bit
  /-- START_POS of DECODE (R33). -/
  startPos : Nat
  /-- END_POS of DECODE (R33). -/
  endPos : Nat
  /-- J, the bit index of the frame DECODE works on (R33). -/
  frameJ : Nat
  /-- K, the character index of ENCODE (R33). -/
  charK : Nat
  /-- The bit index of SYNTH within PASS_BITS (R33). -/
  bitIdx : Nat
deriving DecidableEq, Repr

/-- The six buffers (10_state.md R27). Each is a list of (element index, value) pairs with strictly rising indices
below the capacity; an element that is not listed holds no value (R28; log 8). `Memory.wf` (Machine/Ops.lean) says so. -/
structure Memory where
  txtA : List (Nat × Byte)
  txtB : List (Nat × Byte)
  bitsIn : List (Nat × Bit)
  bitsOut : List (Nat × Bit)
  txtOut : List (Nat × Byte)
  samples : List (Nat × Sample)
deriving DecidableEq, Repr

/-- The block's state (10_state.md R14): the host register file, the buffers and the internal working state; and three
fields of the model's own: the parameters (log 1), the inputs still to come and the host's readings (log 3). -/
structure State where
  /-- CMD (R16). -/
  cmd : BitVec 16
  /-- STATUS: CODE 3:0, ERR_SRC 4, reserved 6:5, BUSY 7 (R17). -/
  status : BitVec 8
  /-- ERR_INDEX (R19). -/
  errIndex : Word32
  /-- ERR_CHAR (R20). -/
  errChar : Byte
  /-- PAD (R21). -/
  pad : BitVec 16
  /-- SPB (R22). -/
  spb : BitVec 16
  /-- PROF: BPC 3:0, BASE 15:8, MAX 23:16 (R23). -/
  prof : Word32
  /-- TXT_A_LEN (R24). -/
  txtALen : Word32
  /-- TXT_B_LEN (R24). -/
  txtBLen : Word32
  /-- BITS_IN_LEN (R24). -/
  bitsInLen : Word32
  /-- BITS_OUT_LEN (R25). -/
  bitsOutLen : Word32
  /-- TXT_OUT_LEN (R25). -/
  txtOutLen : Word32
  /-- SAMPLES_LEN (R25). -/
  samplesLen : Word32
  /-- The six buffers (R27). -/
  mem : Memory
  /-- The internal working state (R29 to R33). -/
  work : Working
  /-- The model's own: the parameters of this block (00_scope.md R6). No step changes them. -/
  params : Config.Params
  /-- The model's own: the host accesses and reset assertions still to come, the next one first. -/
  inputs : List Input
  /-- The model's own: what the host's reads returned, oldest first. -/
  seen : List Reading
deriving DecidableEq, Repr

/-- Why the machine stops with a fault of the model (60_exceptions.md R124; log 5). -/
inductive Fault where
  /-- Raised by a host read of a buffer element that holds no value (10_state.md R28). Safe: the model stops where the
  hardware goes on with a result the spec does not define. -/
  | hostReadNoValue
  /-- Raised by a host access at an element index at or above the buffer's capacity, or to a buffer id of 6 or more
  (20_memory.md R39, R43). Safe, as above. -/
  | hostPastCapacity
  /-- Raised by a command that reads an input element holding no value (20_memory.md R46). Safe, as above. -/
  | commandInputNoValue
deriving DecidableEq, Repr

/-- Why the machine has no transition. -/
inductive Refusal where
  /-- Raised by no meaning: it is the arm of a command that has none. Every command has one. Safe. -/
  | notModelled (mnemonic : String)
  /-- Raised by a host access other than a read of STATUS while STATUS.BUSY = 1, which is not a move of the model
  (70_reset_and_hazards.md R134; 93_implementation_defined.md number 9). Unsafe in the spec's own words: it errs
  toward proving, since a claim about next states says nothing of a host that makes such an access (log 4). -/
  | hostAccessWhileBusy
deriving DecidableEq, Repr

/-- DESIGN CHOICE (log 6, unsafe): the working state after reset, for which 10_state.md R36 gives no values. -/
def Working.reset : Working :=
  { lrcAcc := [], parAcc := 1, amp := 32767, seq := .done, passBits := [], startPos := 0, endPos := 0, frameJ := 0,
    charK := 0, bitIdx := 0 }

/-- Every element of every buffer holds no value (10_state.md R36). -/
def Memory.reset : Memory :=
  { txtA := [], txtB := [], bitsIn := [], bitsOut := [], txtOut := [], samples := [] }

/-- The reset state of a block with parameters `P` (10_state.md R36), with no input pending and nothing read. -/
def State.resetWith (P : Config.Params) : State :=
  { cmd := 0, status := 0x0F, errIndex := 0, errChar := 0, pad := 25, spb := 15, prof := 0, txtALen := 0,
    txtBLen := 0, bitsInLen := 0, bitsOutLen := 0, txtOutLen := 0, samplesLen := 0, mem := Memory.reset,
    work := Working.reset, params := P, inputs := [], seen := [] }

/-- The machine right after reset (10_state.md R36, 70_reset_and_hazards.md R130). -/
def State.reset : State := State.resetWith Config.defaultParams

end Sys2Proof.Machine
end

