-- ==== Sys2Proof/Machine/Flags.lean ====
section
/-! DEFINITION. STATUS: its codes, its fields, and the word a completion or an issue leaves in it. The block has no
other flags (10_state.md R35). -/

namespace Sys2Proof.Machine

/-- The status codes (60_exceptions.md R113). Codes 9 to 14 are reserved and have no name. -/
inductive Code where
  | ok | illegalCharacter | noStartSentinel | noEndSentinel | parityError | lrcMismatch | emptyInput
  | capacityExceeded | illegalCommand | noResult
deriving DecidableEq, Repr

/-- The number of a status code (60_exceptions.md R113). -/
def Code.toBits : Code → BitVec 4
  | .ok => 0
  | .illegalCharacter => 1
  | .noStartSentinel => 2
  | .noEndSentinel => 3
  | .parityError => 4
  | .lrcMismatch => 5
  | .emptyInput => 6
  | .capacityExceeded => 7
  | .illegalCommand => 8
  | .noResult => 15

/-- How a command ends: its code and error record (60_exceptions.md R114). `src` is ERR_SRC: true for an error in the
secondary payload TXT_B. -/
structure Completion where
  code : Code
  index : Nat
  char : Byte
  src : Bool
deriving DecidableEq, Repr

/-- The completion of a command that returns: OK and an error record of zeros (60_exceptions.md R114, R116). -/
def Completion.success : Completion := { code := .ok, index := 0, char := 0, src := false }

/-- The completion of an illegal word (60_exceptions.md R117). -/
def Completion.illegal : Completion := { code := .illegalCommand, index := 0, char := 0, src := false }

/-- CapacityExceeded, with the input it refers to (60_exceptions.md R114, R118). -/
def Completion.capacity (src : Bool) : Completion := { code := .capacityExceeded, index := 0, char := 0, src := src }

/-- A STATUS word from its fields, the reserved bits 6:5 zero (10_state.md R17). -/
def statusWord (busy errSrc : Bool) (code : BitVec 4) : BitVec 8 :=
  BitVec.ofBool busy ++ 0#2 ++ BitVec.ofBool errSrc ++ code

/-- STATUS.CODE (10_state.md R17). -/
def statusCode (st : BitVec 8) : BitVec 4 := st.extractLsb' 0 4

/-- STATUS.ERR_SRC (10_state.md R17). -/
def statusErrSrc (st : BitVec 8) : Bool := st.getLsbD 4

/-- The reserved bits STATUS[6:5] (10_state.md R17). -/
def statusReserved (st : BitVec 8) : BitVec 2 := st.extractLsb' 5 2

/-- STATUS.BUSY (10_state.md R17). -/
def statusBusy (st : BitVec 8) : Bool := st.getLsbD 7

/-- STATUS with BUSY set and every other bit kept: what issue leaves (10_state.md R17, R18). -/
def withBusy (st : BitVec 8) : BitVec 8 := st ||| 0x80#8

/-- STATUS after a completion: its code and ERR_SRC, with BUSY 0 (60_exceptions.md R114, R115, R116). -/
def completedStatus (c : Completion) : BitVec 8 := statusWord false c.src c.code.toBits

end Sys2Proof.Machine
end

