-- ==== Sys2Proof/Machine/Ops.lean ====
section
/-! DEFINITION. The operations the meanings share: reading and writing buffers, and ending a command. An error takes no
trap (60_exceptions.md R122) and there is no return from one (R123): `State.raise` is the one way a command ends with
an error, and `State.succeed` beside it the one way it returns. -/

namespace Sys2Proof.Machine

/-- Element `k` of a buffer, or none where it holds no value (10_state.md R28). -/
def bufRead {α : Type} : List (Nat × α) → Nat → Option α
  | [], _ => none
  | (i, v) :: rest, k => if i = k then some v else bufRead rest k

/-- The buffer with element `k` holding `v`, its indices kept in strictly rising order. -/
def bufWrite {α : Type} : List (Nat × α) → Nat → α → List (Nat × α)
  | [], k, v => [(k, v)]
  | (i, w) :: rest, k, v =>
    if k < i then (k, v) :: (i, w) :: rest
    else if k = i then (k, v) :: rest
    else (i, w) :: bufWrite rest k v

/-- The buffer whose elements from index `i` on hold the values of a sequence, in order, and no others. -/
def bufOfListFrom {α : Type} (i : Nat) : List α → List (Nat × α)
  | [] => []
  | v :: vs => (i, v) :: bufOfListFrom (i + 1) vs

/-- The buffer a command leaves: elements `0 .. n - 1` hold the `n` computed values and every other element holds no
value (10_state.md R28). -/
def bufOfList {α : Type} (vs : List α) : List (Nat × α) := bufOfListFrom 0 vs

/-- Elements `i .. i + n - 1` of a buffer in index order, or none where one of them holds no value. -/
def bufReadRange {α : Type} (b : List (Nat × α)) : Nat → Nat → Option (List α)
  | _, 0 => some []
  | i, n + 1 =>
    match bufRead b i with
    | none => none
    | some v => (bufReadRange b (i + 1) n).map (v :: ·)

/-- `B[0..n)` (00_scope.md R10), or none where one of the elements holds no value (20_memory.md R46). -/
def bufPrefix {α : Type} (b : List (Nat × α)) (n : Nat) : Option (List α) := bufReadRange b 0 n

/-- Indices strictly rising, from `lo` on and below `cap`. -/
def bufWfFrom {α : Type} (lo cap : Nat) : List (Nat × α) → Bool
  | [] => true
  | (i, _) :: rest => lo ≤ i && i < cap && bufWfFrom (i + 1) cap rest

/-- The canonical form of a buffer with capacity `cap`. An unlisted element holds no value, so that no entry can equal
what an unlisted one reads as. -/
def bufWf {α : Type} (cap : Nat) (b : List (Nat × α)) : Bool := bufWfFrom 0 cap b

/-- Every buffer is in its canonical form and within its capacity (10_state.md R27, R28). -/
def Memory.wf (P : Config.Params) (m : Memory) : Bool :=
  bufWf P.textCap m.txtA && bufWf P.textCap m.txtB && bufWf P.bitsCap m.bitsIn && bufWf P.bitsCap m.bitsOut &&
    bufWf P.textCap m.txtOut && bufWf P.samplesCap m.samples

/-- Element `k` of buffer `b` as the host reads it, or none where it holds no value (20_memory.md R40). -/
def Memory.read (m : Memory) (b : BufId) (k : Nat) : Option Elem :=
  match b with
  | .txtA => (bufRead m.txtA k).map .char
  | .txtB => (bufRead m.txtB k).map .char
  | .bitsIn => (bufRead m.bitsIn k).map .bit
  | .bitsOut => (bufRead m.bitsOut k).map .bit
  | .txtOut => (bufRead m.txtOut k).map .char
  | .samples => (bufRead m.samples k).map .sample

/-- A host write of element `k` of buffer `b`: the value truncated to the element's width, and nothing at all for the
read-only BITS_OUT, TXT_OUT and SAMPLES (20_memory.md R40). -/
def Memory.hostWrite (m : Memory) (b : BufId) (k v : Nat) : Memory :=
  match b with
  | .txtA => { m with txtA := bufWrite m.txtA k (BitVec.ofNat 8 v) }
  | .txtB => { m with txtB := bufWrite m.txtB k (BitVec.ofNat 8 v) }
  | .bitsIn => { m with bitsIn := bufWrite m.bitsIn k (v.testBit 0) }
  | .bitsOut => m
  | .txtOut => m
  | .samples => m

/-- The capacity of a buffer (10_state.md R27). -/
def BufId.capacity (P : Config.Params) : BufId → Nat
  | .txtA => P.textCap
  | .txtB => P.textCap
  | .bitsIn => P.bitsCap
  | .bitsOut => P.bitsCap
  | .txtOut => P.textCap
  | .samples => P.samplesCap

/-- STATUS.BUSY (10_state.md R18). -/
def State.busy (s : State) : Bool := statusBusy s.status

/-- Completion: CODE, ERR_SRC, ERR_INDEX and ERR_CHAR are written and BUSY is cleared, in the same step
(60_exceptions.md R114; 70_reset_and_hazards.md R133). -/
def State.complete (c : Completion) (s : State) : State :=
  { s with status := completedStatus c, errIndex := BitVec.ofNat 32 c.index, errChar := c.char }

/-- `return`: a successful completion (60_exceptions.md R116). -/
def State.succeed (s : State) : State := s.complete .success

/-- A word that decodes to no command: IllegalCommand, and no other register, buffer or length changes
(60_exceptions.md R117). -/
def State.completeIllegal (s : State) : State := s.complete .illegal

/-- BITS_OUT and BITS_OUT_LEN as ENCODE writes them (41_encode.md R80; 10_state.md R28). A length fits its register
(log 19). -/
def State.storeBitsOut (bits : List Bit) (s : State) : State :=
  { s with mem := { s.mem with bitsOut := bufOfList bits }, bitsOutLen := BitVec.ofNat 32 bits.length }

/-- TXT_OUT and TXT_OUT_LEN as DECODE writes them (42_decode.md R93; 10_state.md R28). -/
def State.storeTxtOut (text : List Byte) (s : State) : State :=
  { s with mem := { s.mem with txtOut := bufOfList text }, txtOutLen := BitVec.ofNat 32 text.length }

/-- SAMPLES and SAMPLES_LEN as SYNTH writes them (43_synth.md R110; 10_state.md R28). -/
def State.storeSamples (out : List Sample) (s : State) : State :=
  { s with mem := { s.mem with samples := bufOfList out }, samplesLen := BitVec.ofNat 32 out.length }

/-- The commands that have an output buffer, named by it. -/
inductive OutBuf where
  | bitsOut | txtOut | samples
deriving DecidableEq, Repr

/-- A command's own output length 0 and its own output buffer holding no value (60_exceptions.md R115). -/
def State.clearOutput (o : OutBuf) (s : State) : State :=
  match o with
  | .bitsOut => s.storeBitsOut []
  | .txtOut => s.storeTxtOut []
  | .samples => s.storeSamples []

/-- `raise`: the command with output buffer `o` ends with an error (60_exceptions.md R115). Registers it wrote before
keep their new values; the machine saves nothing and goes nowhere else (R122). -/
def State.raise (o : OutBuf) (c : Completion) (s : State) : State := (s.clearOutput o).complete c

/-- `raise_keep`, SYNTH only: the samples produced so far are written first (60_exceptions.md R115;
43_synth.md R107). -/
def State.raiseKeep (out : List Sample) (c : Completion) (s : State) : State := (s.storeSamples out).complete c

end Sys2Proof.Machine
end

