-- ==== Sys2Proof/Machine/Operands.lean ====
section
/-! DEFINITION. Operands: the register file by index, the bit sequences the commands work on, the track selector, and
the reads of the input buffers (10_state.md section 2; 20_memory.md R38, R45; 00_scope.md R7 to R12). -/

namespace Sys2Proof.Machine

/-- The register an index selects; 13 and above select none (20_memory.md R38). -/
def Reg.ofIndex : Nat → Option Reg
  | 0 => some .cmd
  | 1 => some .status
  | 2 => some .errIndex
  | 3 => some .errChar
  | 4 => some .pad
  | 5 => some .spb
  | 6 => some .prof
  | 7 => some .txtALen
  | 8 => some .txtBLen
  | 9 => some .bitsInLen
  | 10 => some .bitsOutLen
  | 11 => some .txtOutLen
  | 12 => some .samplesLen
  | _ => none

/-- The buffer an id selects; 6 and above select none (20_memory.md R39). -/
def BufId.ofIndex : Nat → Option BufId
  | 0 => some .txtA
  | 1 => some .txtB
  | 2 => some .bitsIn
  | 3 => some .bitsOut
  | 4 => some .txtOut
  | 5 => some .samples
  | _ => none

/-- A register's value zero-extended to 32 bits (20_memory.md R38). -/
def State.getReg (s : State) : Reg → Word32
  | .cmd => s.cmd.setWidth 32
  | .status => s.status.setWidth 32
  | .errIndex => s.errIndex
  | .errChar => s.errChar.setWidth 32
  | .pad => s.pad.setWidth 32
  | .spb => s.spb.setWidth 32
  | .prof => s.prof
  | .txtALen => s.txtALen
  | .txtBLen => s.txtBLen
  | .bitsInLen => s.bitsInLen
  | .bitsOutLen => s.bitsOutLen
  | .txtOutLen => s.txtOutLen
  | .samplesLen => s.samplesLen

/-- `RegRead(i)`: an index of 13 or above reads 0 (20_memory.md R38, R40). -/
def State.regRead (s : State) (i : Nat) : Word32 :=
  match Reg.ofIndex i with
  | none => 0
  | some r => s.getReg r

/-- Issue: a host write of CMD while BUSY = 0 stores the command word and sets BUSY (10_state.md R16, R18;
70_reset_and_hazards.md R132). -/
def State.issue (w : BitVec 16) (s : State) : State := { s with cmd := w, status := withBusy s.status }

/-- A host write to a register: an RW register keeps the value's low bits, an RO register ignores it
(10_state.md R26); a write to CMD issues a command (R16). -/
def State.setReg (s : State) (r : Reg) (v : Nat) : State :=
  match r with
  | .cmd => s.issue (BitVec.ofNat 16 v)
  | .pad => { s with pad := BitVec.ofNat 16 v }
  | .spb => { s with spb := BitVec.ofNat 16 v }
  | .txtALen => { s with txtALen := BitVec.ofNat 32 v }
  | .txtBLen => { s with txtBLen := BitVec.ofNat 32 v }
  | .bitsInLen => { s with bitsInLen := BitVec.ofNat 32 v }
  | .status => s
  | .errIndex => s
  | .errChar => s
  | .prof => s
  | .bitsOutLen => s
  | .txtOutLen => s
  | .samplesLen => s

/-- `RegWrite(i, v)`: an index of 13 or above ignores the write (20_memory.md R38, R40). -/
def State.regWrite (s : State) (i v : Nat) : State :=
  match Reg.ofIndex i with
  | none => s
  | some r => s.setReg r v

/-- `sum(s)` and `popcount(s)`: the number of 1 bits of a sequence (00_scope.md R9). -/
def bitSum : List Bit → Nat
  | [] => 0
  | b :: bs => b.toNat + bitSum bs

/-- `zeros(n)` (00_scope.md R8). -/
def zeros (n : Nat) : List Bit := List.replicate n false

/-- Bits `0 .. n - 1` of a number, bit 0 first (41_encode.md R71). -/
def bitsLsbFirst (n v : Nat) : List Bit := (List.range n).map v.testBit

/-- The unsigned value of a bit sequence read least-significant bit first: the sum of `f[x] * 2^x`
(42_decode.md R87). -/
def valueLsbFirst : List Bit → Nat
  | [] => 0
  | b :: bs => b.toNat + 2 * valueLsbFirst bs

/-- Column-wise exclusive-or of two bit sequences (41_encode.md R74). -/
def xorColumns (a d : List Bit) : List Bit := List.zipWith xor a d

/-- PAR_ACC after a frame's data bits: seeded at 1 and increased by each bit's value (10_state.md R30;
41_encode.md R72). -/
def parityAcc (d : List Bit) : Nat := 1 + bitSum d

/-- The odd-parity bit, `PAR_ACC mod 2` (41_encode.md R72). -/
def parityBit (d : List Bit) : Bit := parityAcc d % 2 == 1

/-- Data bits followed by their odd-parity bit (41_encode.md R73, R75). -/
def withParity (d : List Bit) : List Bit := d ++ [parityBit d]

/-- `b[i..i+n)`, cut short where the sequence ends (00_scope.md R8). -/
def slice (b : List Bit) (i n : Nat) : List Bit := (b.drop i).take n

/-- `sext_16(v)`: the 16-bit two's-complement encoding of an integer (00_scope.md R10; log 18). -/
def sext16 (v : Int) : Sample := BitVec.ofInt 16 v

/-- The track selector (30_encoding.md R56). -/
inductive Track where
  | track1 | track2 | track3
deriving DecidableEq, Repr

/-- SEL as a track number; SEL = 0 is reserved (30_encoding.md R56). -/
def trackOf (sel : BitVec 2) : Option Track :=
  if sel = 1#2 then some .track1
  else if sel = 2#2 then some .track2
  else if sel = 3#2 then some .track3
  else none

/-- TXT_A[0..TXT_A_LEN), none where an element holds no value (20_memory.md R45, R46). -/
def State.textA (s : State) : Option (List Byte) := bufPrefix s.mem.txtA s.txtALen.toNat

/-- TXT_B[0..TXT_B_LEN), none where an element holds no value (20_memory.md R45, R46). -/
def State.textB (s : State) : Option (List Byte) := bufPrefix s.mem.txtB s.txtBLen.toNat

/-- BITS_IN[0..BITS_IN_LEN), none where an element holds no value (20_memory.md R45, R46). -/
def State.inputBits (s : State) : Option (List Bit) := bufPrefix s.mem.bitsIn s.bitsInLen.toNat

end Sys2Proof.Machine
end

