-- ==== Sys2Proof/Machine/Decoder.lean ====
section
/-! DEFINITION. The sentinel search, the frame validator, the LRC check and DECODE (spec/42_decode.md). -/

namespace Sys2Proof.Machine

/-- DECODE_WIDTH: the decoder's frame is always 7 bits (42_decode.md R83). -/
def decodeWidth : Nat := 7

/-- The start pattern `1010001` in stream order (42_decode.md R84). -/
def startPattern : List Bit := [true, false, true, false, false, false, true]

/-- The end pattern `1111100` in stream order (42_decode.md R85). -/
def endPattern : List Bit := [true, true, true, true, true, false, false]

/-- The least position at or after `p` at which `pat` stands, where the sequence given is `b[p..)`. A position with
fewer bits left than the pattern has is none (42_decode.md R84, R92). -/
def findFrom (pat : List Bit) : List Bit → Nat → Option Nat
  | [], _ => none
  | x :: xs, p => if pat.isPrefixOf (x :: xs) then some p else findFrom pat xs (p + 1)

/-- START_POS: the first occurrence of the start pattern (42_decode.md R84). -/
def findStart (b : List Bit) : Option Nat := findFrom startPattern b 0

/-- The end search's loop: the first occurrence at or after `q`, and while it is not aligned to `start` the next at or
after `E + 1` (42_decode.md R85, R92). Each round moves on by a bit, so `len(b) + 1` rounds are enough (log 21). -/
def endLoop (b : List Bit) (start : Nat) : Nat → Nat → Option Nat
  | 0, _ => none
  | rounds + 1, q =>
    match findFrom endPattern (b.drop q) q with
    | none => none
    | some e => if (e - start) % decodeWidth = 0 then some e else endLoop b start rounds (e + 1)

/-- END_POS: the end sentinel aligned to the start, searched for from START_POS on (42_decode.md R85). -/
def findEnd (b : List Bit) (start : Nat) : Option Nat := endLoop b start (b.length + 1) start

/-- The character a frame decodes to: 32 plus the value of its six data bits (42_decode.md R87). -/
def frameChar (f : List Bit) : Byte := BitVec.ofNat 8 (32 + valueLsbFirst (f.take 6))

/-- A frame is valid when its population is odd (42_decode.md R88). -/
def frameValid (f : List Bit) : Bool := bitSum f % 2 == 1

/-- Where the decoder's frame walk stands when it ends (42_decode.md R92): the characters so far, LRC_ACC, PAR_ACC, J,
and the value of the failing frame if there was one. DESIGN CHOICE (log 7): J is the position of the last frame the walk
looked at, the failing one or the one at END_POS; the spec allows any value after the walk (10_state.md R33). -/
structure DecodeLoop where
  out : List Byte
  lrcAcc : List Bit
  parAcc : Nat
  j : Nat
  bad : Option Byte
deriving DecidableEq, Repr

/-- The frame walk over `n` more frames after the one at `j - 7`, from bit `j` on (42_decode.md R87, R88, R89). It ends
at the first invalid frame. `last` is the J and `par` the PAR_ACC of the frame before. -/
def walkFrames (b : List Bit) (lrc : List Bit) (par last : Nat) : Nat → Nat → DecodeLoop
  | _, 0 => { out := [], lrcAcc := lrc, parAcc := par, j := last, bad := none }
  | j, n + 1 =>
    let f := slice b j decodeWidth
    let d := f.take 6
    if frameValid f then
      let r := walkFrames b (xorColumns lrc d) (parityAcc d) j (j + decodeWidth) n
      { r with out := frameChar f :: r.out }
    else { out := [], lrcAcc := lrc, parAcc := parityAcc d, j := j, bad := some (frameChar f) }

/-- The walk from START_POS to END_POS inclusive, from LRC_ACC = zeros(6) (42_decode.md R89, R92). -/
def decodeLoop (b : List Bit) (start stop : Nat) : DecodeLoop :=
  walkFrames b (zeros 6) 1 start start ((stop - start) / decodeWidth + 1)

/-- The LRC check: the seven bits from `t` on are the accumulator and its parity bit. A trailer cut short differs
(42_decode.md R90; 92_eei_decisions.md D10). -/
def trailerMatches (b lrc : List Bit) (t : Nat) : Bool := slice b t decodeWidth == withParity lrc

/-- `decodeBits(b)` (42_decode.md R92). -/
def decodeBits (b : List Bit) : Except Completion (List Byte) :=
  match findStart b with
  | none => .error { code := .noStartSentinel, index := 0, char := 0, src := false }
  | some start =>
    match findEnd b start with
    | none => .error { code := .noEndSentinel, index := start, char := 0, src := false }
    | some stop =>
      let r := decodeLoop b start stop
      let t := stop + decodeWidth
      match r.bad with
      | some c => .error { code := .parityError, index := r.j, char := c, src := false }
      | none =>
        if t + decodeWidth > b.length then .error { code := .lrcMismatch, index := t, char := 0, src := false }
        else if trailerMatches b r.lrcAcc t then .ok r.out
        else .error { code := .lrcMismatch, index := t, char := 0, src := false }

/-- START_POS, END_POS, J, LRC_ACC and PAR_ACC as `decodeBits` leaves them; a search that fails sets none of what comes
after it (42_decode.md R92; log 7). -/
def decodeWork (b : List Bit) (w : Working) : Working :=
  match findStart b with
  | none => w
  | some start =>
    match findEnd b start with
    | none => { w with startPos := start }
    | some stop =>
      let r := decodeLoop b start stop
      let par := match r.bad with
        | some _ => r.parAcc
        | none => parityAcc r.lrcAcc
      { w with startPos := start, endPos := stop, frameJ := r.j, lrcAcc := r.lrcAcc, parAcc := par }

/-- DECODE once BITS_IN is read (42_decode.md R93). -/
def State.decodeInput (b : List Bit) (s : State) : State :=
  let s1 := { s with work := decodeWork b s.work }
  match decodeBits b with
  | .error c => s1.raise .txtOut c
  | .ok out =>
    if out.length > s.params.textCap then s1.raise .txtOut (.capacity false)
    else (s1.storeTxtOut out).succeed

/-- DECODE (42_decode.md R93). An unwritten element of BITS_IN below BITS_IN_LEN is a fault of the model
(20_memory.md R46). -/
def execDecode (s : State) : Host.Outcome State Fault Refusal :=
  if s.bitsInLen.toNat > s.params.bitsCap then .next (s.raise .txtOut (.capacity false))
  else
    match s.inputBits with
    | none => .fault .commandInputNoValue
    | some b => .next (s.decodeInput b)

end Sys2Proof.Machine
end

