-- ==== Sys2Proof/Machine/Profile.lean ====
section
/-! DEFINITION. The TrackProfile unit and RESOLVE (spec/40_profile.md). -/

namespace Sys2Proof.Machine

/-- A TrackProfile: the triple (bitsPerChar, charBase, maxRawValue) (40_profile.md R64). -/
structure Profile where
  bitsPerChar : Nat
  charBase : Nat
  maxRawValue : Nat
deriving DecidableEq, Repr

/-- P1, Track1's profile (40_profile.md R64). -/
def profile1 : Profile := { bitsPerChar := 7, charBase := 32, maxRawValue := 63 }

/-- P23, the profile of Track2 and Track3 (40_profile.md R64, R67). -/
def profile23 : Profile := { bitsPerChar := 5, charBase := 48, maxRawValue := 15 }

/-- The number of data bits of a frame, `bitsPerChar - 1` (41_encode.md R71). -/
def Profile.dataWidth (p : Profile) : Nat := p.bitsPerChar - 1

/-- `profile(sel)` (40_profile.md R64). -/
def profile : Track → Profile
  | .track1 => profile1
  | .track2 => profile23
  | .track3 => profile23

/-- `'%'`, the character that selects P1 (40_profile.md R66; 00_scope.md R11). -/
def charPercent : Byte := 37

/-- `autoProfile(text)`, which is not defined for the empty text (40_profile.md R66). -/
def autoProfile : List Byte → Option Profile
  | [] => none
  | c :: _ => some (if c = charPercent then profile1 else profile23)

/-- `packProf(p)` (40_profile.md R68). -/
def packProf (p : Profile) : Word32 := BitVec.ofNat 32 (p.bitsPerChar + 256 * p.charBase + 65536 * p.maxRawValue)

/-- PROF receives a profile (10_state.md R23). -/
def State.setProf (p : Profile) (s : State) : State := { s with prof := packProf p }

/-- RESOLVE (40_profile.md R69). A term with SEL = 0, which no word decodes to, completes with IllegalCommand as
30_encoding.md R56 says of the word (log 14). -/
def execResolve (sel : BitVec 2) (s : State) : Host.Outcome State Fault Refusal :=
  match trackOf sel with
  | none => .next s.completeIllegal
  | some t => .next (s.setProf (profile t)).succeed

end Sys2Proof.Machine
end

