-- ==== Sys2Proof/Machine/Encoder.lean ====
section
/-! DEFINITION. The frame encoder, the LRC accumulator and ENCODE (spec/41_encode.md). -/

namespace Sys2Proof.Machine

/-- `raw = c - charBase`, signed (41_encode.md R70). -/
def rawValue (p : Profile) (c : Byte) : Int := (c.toNat : Int) - (p.charBase : Int)

/-- A character is legal when `0 <= raw <= maxRawValue` (41_encode.md R70). -/
def legalChar (p : Profile) (c : Byte) : Bool := 0 ≤ rawValue p c && rawValue p c ≤ (p.maxRawValue : Int)

/-- The data bits of a legal character, bit 0 of its raw value first (41_encode.md R71). -/
def dataBits (p : Profile) (c : Byte) : List Bit := bitsLsbFirst p.dataWidth (rawValue p c).toNat

/-- `frame(c, p)`: the data bits and their parity bit (41_encode.md R73). -/
def frame (p : Profile) (c : Byte) : List Bit := withParity (dataBits p c)

/-- Where the encoder's character loop stands when it ends (41_encode.md R78): the frames so far, LRC_ACC, PAR_ACC, K,
and the offending character if it met one. DESIGN CHOICE (log 7): after a loop that met none K is one past the last
character, the length of the text; the spec allows any value there (10_state.md R33). -/
structure EncodeLoop where
  frames : List Bit
  lrcAcc : List Bit
  parAcc : Nat
  k : Nat
  bad : Option Byte
deriving DecidableEq, Repr

/-- The character loop of `encodeText` from character index `k`, with LRC_ACC and PAR_ACC as the characters before left
them (41_encode.md R74, R78). It ends at the first illegal character. -/
def encodeChars (p : Profile) (k : Nat) (lrc : List Bit) (par : Nat) : List Byte → EncodeLoop
  | [] => { frames := [], lrcAcc := lrc, parAcc := par, k := k, bad := none }
  | c :: cs =>
    if legalChar p c then
      let d := dataBits p c
      let r := encodeChars p (k + 1) (xorColumns lrc d) (parityAcc d) cs
      { r with frames := withParity d ++ r.frames }
    else { frames := [], lrcAcc := lrc, parAcc := par, k := k, bad := some c }

/-- The loop over a whole text, from LRC_ACC = zeros(n) (41_encode.md R74, R78). -/
def encodeLoop (p : Profile) (text : List Byte) : EncodeLoop := encodeChars p 0 (zeros p.dataWidth) 1 text

/-- `encodeText(text, pad)`, the pure function ENCODE and SYNTH share (41_encode.md R78). -/
def encodeText (text : List Byte) (pad : Nat) : Except Completion (List Bit × Profile) :=
  match autoProfile text with
  | none => .error { code := .emptyInput, index := 0, char := 0, src := false }
  | some p =>
    let r := encodeLoop p text
    match r.bad with
    | some c => .error { code := .illegalCharacter, index := r.k, char := c, src := false }
    | none => .ok (zeros pad ++ r.frames ++ withParity r.lrcAcc ++ zeros pad, p)

/-- LRC_ACC, PAR_ACC and K as `encodeText` leaves them; a text that ends it before the loop sets none of them
(41_encode.md R78; log 7). -/
def encodeWork (text : List Byte) (w : Working) : Working :=
  match autoProfile text with
  | none => w
  | some p =>
    let r := encodeLoop p text
    let par := match r.bad with
      | some _ => r.parAcc
      | none => parityAcc r.lrcAcc
    { w with lrcAcc := r.lrcAcc, parAcc := par, charK := r.k }

/-- The profile a text selects is written to PROF as soon as it is known; a text without a first character selects
none (41_encode.md R80; 92_eei_decisions.md D31). -/
def State.selectProfile (text : List Byte) (s : State) : State :=
  match autoProfile text with
  | none => s
  | some p => s.setProf p

/-- ENCODE once TXT_A is read: PROF, then the encoding, then the check of its length (41_encode.md R80). -/
def State.encodeTextA (text : List Byte) (s : State) : State :=
  let s1 := s.selectProfile text
  let s2 := { s1 with work := encodeWork text s1.work }
  match encodeText text s.pad.toNat with
  | .error c => s2.raise .bitsOut c
  | .ok (bits, _) =>
    if bits.length > s.params.bitsCap then s2.raise .bitsOut (.capacity false)
    else (s2.storeBitsOut bits).succeed

/-- ENCODE (41_encode.md R80). An unwritten element of TXT_A below TXT_A_LEN is a fault of the model
(20_memory.md R46). -/
def execEncode (s : State) : Host.Outcome State Fault Refusal :=
  if s.txtALen.toNat > s.params.textCap then .next (s.raise .bitsOut (.capacity false))
  else
    match s.textA with
    | none => .fault .commandInputNoValue
    | some text => .next (s.encodeTextA text)

end Sys2Proof.Machine
end

