-- ==== Sys2Proof/Machine/Synth.lean ====
section
/-! DEFINITION. The biphase synthesizer, its two-pass sequencer and SYNTH (spec/43_synth.md). -/

namespace Sys2Proof.Machine

/-- PEAK (43_synth.md R97). -/
def peak : Int := 32767

/-- `h0 = SPB div 2`, the run of a 0 bit (43_synth.md R98). -/
def fullRun (spb : Nat) : Nat := spb / 2

/-- `h1 = SPB div 4`, each half run of a 1 bit (43_synth.md R98). -/
def halfRun (spb : Nat) : Nat := spb / 4

/-- The inversions a bit makes, in order, each given by the length of the run that follows it: two half runs for a 1, one
full run for a 0 (43_synth.md R99, R100). -/
def bitRuns (spb : Nat) (bit : Bit) : List Nat := if bit then [halfRun spb, halfRun spb] else [fullRun spb]

/-- Each inversion in turn: AMP is inverted, and as many copies of it are appended as its run is long. The samples
appended and the AMP left (43_synth.md R97, R101). -/
def emitRuns (amp : Int) : List Nat → List Sample × Int
  | [] => ([], amp)
  | n :: runs =>
    let r := emitRuns (-amp) runs
    (List.replicate n (sext16 (-amp)) ++ r.1, r.2)

/-- `emitBit`: the samples a bit appends and the AMP it leaves (43_synth.md R99, R100, R101). -/
def emitBit (spb : Nat) (amp : Int) (bit : Bit) : List Sample × Int := emitRuns amp (bitRuns spb bit)

/-- `emitPass`: the samples a bit sequence appends, left to right, and the AMP it leaves (43_synth.md R101). -/
def emitPass (spb : Nat) (amp : Int) : List Bit → List Sample × Int
  | [] => ([], amp)
  | bit :: bits =>
    let r := emitBit spb amp bit
    let rest := emitPass spb r.2 bits
    (r.1 ++ rest.1, rest.2)

/-- `altSentinel(sel)`: `';'` for Track1, `'%'` for Track2 and Track3 (43_synth.md R102; the code of `';'` is
log 17). -/
def altSentinel : Track → Byte
  | .track1 => 59
  | .track2 => charPercent
  | .track3 => charPercent

/-- SEQ takes a value (43_synth.md R109). -/
def State.setSeq (q : Seq) (s : State) : State := { s with work := { s.work with seq := q } }

/-- A pass over PASS_BITS := `bits` from the AMP the machine holds: the state it leaves and the samples it appends
(43_synth.md R101, R106, R109). DESIGN CHOICE (log 7): the bit index ends one past the last bit, the length of PASS_BITS;
the spec allows any value after the pass (10_state.md R33). -/
def State.runPass (bits : List Bit) (s : State) : State × List Sample :=
  let r := emitPass s.spb.toNat s.work.amp bits
  ({ s with work := { s.work with amp := r.2, passBits := bits, bitIdx := bits.length } }, r.1)

/-- SYNTH begins: AMP is set to +PEAK and SEQ to EmitPrimary (43_synth.md R97, R109). -/
def State.beginSynth (s : State) : State := { s with work := { s.work with amp := peak, seq := .emitPrimary } }

/-- Done with an error: SAMPLES is cleared (43_synth.md R110; 60_exceptions.md R115). -/
def State.synthRaise (src : Bool) (s : State) : State := (s.setSeq .done).raise .samples (.capacity src)

/-- Done: the samples are stored, unless there are more than SAMPLES_CAP of them (43_synth.md R110). -/
def State.synthFinish (out : List Sample) (s : State) : State :=
  if out.length > s.params.samplesCap then s.synthRaise false
  else ((s.setSeq .done).storeSamples out).succeed

/-- The second-track test: TXT_B is there and begins with the alternate sentinel; none where TXT_B[0] must be read and
holds no value (43_synth.md R103; 20_memory.md R45, R46). -/
def State.secondaryTest (t : Track) (s : State) : Option Bool :=
  if s.txtBLen.toNat = 0 then some false
  else (bufRead s.mem.txtB 0).map (· == altSentinel t)

/-- The stop test, its terms from left to right and ending at the first that is true; none where TXT_A[0] must be read
and holds no value (43_synth.md R104, R110; 20_memory.md R46). -/
def State.stopTest (t : Track) (rev : Bool) (s : State) : Option Bool :=
  if rev = false then some true
  else if s.txtALen.toNat = 0 then some true
  else (bufRead s.mem.txtA 0).map (· != altSentinel t)

/-- The secondary branch, once TXT_B is read: encode it with padding 0 and emit it, reversed when REVERSE_SECONDARY
says so. A failing encode keeps the first pass (43_synth.md R103, R105, R107, R110). -/
def State.synthSecondary (out : List Sample) (text : List Byte) (s : State) : State :=
  let s1 := { s with work := encodeWork text s.work }
  match encodeText text 0 with
  | .error c => (s1.setSeq .done).raiseKeep out { c with src := true }
  | .ok (bits2, _) =>
    if bits2.length > s.params.bitsCap then s1.synthRaise true
    else
      let r := s1.runPass (if s.params.reverseSecondary then bits2.reverse else bits2)
      r.1.synthFinish (out ++ r.2)

/-- The reverse branch: PASS_BITS reversed (43_synth.md R105, R109). -/
def State.synthReverse (out : List Sample) (s : State) : State :=
  let r := s.runPass s.work.passBits.reverse
  r.1.synthFinish (out ++ r.2)

/-- SEQ = MaybeEmitSecondary: the secondary branch, the stop, or the reverse branch (43_synth.md R109, R110). -/
def State.synthMaybeSecondary (t : Track) (rev : Bool) (out : List Sample) (s : State) :
    Host.Outcome State Fault Refusal :=
  match s.secondaryTest t with
  | none => .fault .commandInputNoValue
  | some true =>
    match s.textB with
    | none => .fault .commandInputNoValue
    | some text => .next (s.synthSecondary out text)
  | some false =>
    match s.stopTest t rev with
    | none => .fault .commandInputNoValue
    | some true => .next (s.synthFinish out)
    | some false => .next (s.synthReverse out)

/-- SEQ = EmitPrimary on BITS_IN, and what follows it (43_synth.md R109, R110). -/
def State.synthPrimary (t : Track) (rev : Bool) (bits : List Bit) (s : State) : Host.Outcome State Fault Refusal :=
  let r := s.beginSynth.runPass bits
  if r.2.length > s.params.samplesCap then .next (r.1.synthRaise false)
  else (r.1.setSeq .maybeEmitSecondary).synthMaybeSecondary t rev r.2

/-- Some input length is above its buffer's capacity (43_synth.md R110). -/
def State.synthInputTooLong (s : State) : Bool :=
  s.bitsInLen.toNat > s.params.bitsCap || s.txtALen.toNat > s.params.textCap || s.txtBLen.toNat > s.params.textCap

/-- SYNTH (43_synth.md R110). An unwritten input element that the pseudocode reads is a fault of the model
(20_memory.md R46). A term with SEL = 0, which no word decodes to, completes with IllegalCommand as 30_encoding.md R56
says of the word (log 14). -/
def execSynth (sel : BitVec 2) (rev : Bool) (s : State) : Host.Outcome State Fault Refusal :=
  match trackOf sel with
  | none => .next s.completeIllegal
  | some t =>
    if s.synthInputTooLong then .next (s.raise .samples (.capacity false))
    else
      match s.inputBits with
      | none => .fault .commandInputNoValue
      | some bits => s.synthPrimary t rev bits

end Sys2Proof.Machine
end

