-- ==== Sys2Proof/Machine/HostAccess.lean ====
section
/-! DEFINITION. The host's side of a step: whose turn it is, what a host access or the reset input does, and the host's
pseudo-instructions (20_memory.md R40, R43; 30_encoding.md R62, R63; 70_reset_and_hazards.md R130 to R134). -/

namespace Sys2Proof.Machine

/-- Whose move the next step is. -/
inductive Turn where
  /-- The core executes the issued command. -/
  | core
  /-- An input happens; `rest` are the inputs after it. -/
  | input (m : Input) (rest : List Input)
  /-- Nothing is issued and nothing is pending. -/
  | idle
deriving DecidableEq, Repr

/-- DESIGN CHOICE (log 3): the order of the inputs decides whose move it is. While BUSY = 1 the core executes when the
host waits or has nothing to do (R132), and an access the host makes before that comes first; while BUSY = 0 the next
input happens (R134). -/
def State.turn (s : State) : Turn :=
  match s.inputs with
  | [] => if s.busy then .core else .idle
  | .wait :: rest => if s.busy then .core else .input .wait rest
  | m :: rest => .input m rest

/-- What a read returned goes to the host; the read has no other effect (20_memory.md R44). -/
def State.observe (r : Reading) (s : State) : State := { s with seen := s.seen ++ [r] }

/-- A host read of a buffer element: past capacity or of an element that holds no value it has no defined result
(20_memory.md R39, R43; 10_state.md R28). -/
def State.hostBufRead (b k : Nat) (s : State) : Host.Outcome State Fault Refusal :=
  match BufId.ofIndex b with
  | none => .fault .hostPastCapacity
  | some id =>
    if id.capacity s.params ≤ k then .fault .hostPastCapacity
    else
      match s.mem.read id k with
      | none => .fault .hostReadNoValue
      | some e => .next (s.observe (.elem b k e))

/-- A host write of a buffer element: past capacity it has no defined result, whatever the buffer's access
(20_memory.md R39, R43; log 9). -/
def State.hostBufWrite (b k v : Nat) (s : State) : Host.Outcome State Fault Refusal :=
  match BufId.ofIndex b with
  | none => .fault .hostPastCapacity
  | some id =>
    if id.capacity s.params ≤ k then .fault .hostPastCapacity
    else .next { s with mem := s.mem.hostWrite id k v }

/-- Reset: every register and buffer in the reset state of 10_state.md R36 (70_reset_and_hazards.md R130). The
parameters and the host's own moves and readings are not the block's state and stay (log 12). -/
def State.assertReset (s : State) : State :=
  { State.resetWith s.params with inputs := s.inputs, seen := s.seen }

/-- The only host access that is a move of the model while BUSY = 1: a read of STATUS, register index 1
(10_state.md R18; 70_reset_and_hazards.md R134). -/
def Input.readsStatus : Input → Bool
  | .regRead i => i == 1
  | _ => false

/-- What a host access does while BUSY = 0; a read of STATUS does the same while BUSY = 1. WAIT is here the poll that
reads BUSY = 0 (30_encoding.md R62; log 10). -/
def State.access (m : Input) (s : State) : Host.Outcome State Fault Refusal :=
  match m with
  | .regRead i => .next (s.observe (.reg i (s.regRead i)))
  | .regWrite i v => .next (s.regWrite i v)
  | .bufRead b k => s.hostBufRead b k
  | .bufWrite b k v => s.hostBufWrite b k v
  | .wait => .next (s.observe (.reg 1 (s.regRead 1)))
  | .reset => .next s.assertReset

/-- One input. Reset may be asserted at any time (70_reset_and_hazards.md R130); a host access other than a read of
STATUS while BUSY = 1 is not a move of the model (R134; 93_implementation_defined.md number 9). -/
def State.takeInput (m : Input) (s : State) : Host.Outcome State Fault Refusal :=
  if s.busy && m != .reset && !m.readsStatus then .refused .hostAccessWhileBusy
  else s.access m

/-- The inputs with the core's move before them: WAIT is put in front unless the core moves first already. -/
def coreFirst : List Input → List Input
  | [] => []
  | .wait :: rest => .wait :: rest
  | m :: rest => .wait :: m :: rest

/-- The host's writes of a sequence of values to a buffer from element `k` on (30_encoding.md R63). -/
def loadFrom (b k : Nat) : List Nat → List Input
  | [] => []
  | v :: vs => .bufWrite b k v :: loadFrom b (k + 1) vs

/-- The pseudo-instruction of a command: its word written to CMD, then WAIT (30_encoding.md R63). -/
def issueInputs (w : BitVec 16) : List Input := [.regWrite 0 w.toNat, .wait]

/-- `LOADTXT A` (30_encoding.md R63). -/
def loadTxtA (text : List Byte) : List Input := loadFrom 0 0 (text.map (·.toNat)) ++ [.regWrite 7 text.length]

/-- `LOADTXT B` (30_encoding.md R63). -/
def loadTxtB (text : List Byte) : List Input := loadFrom 1 0 (text.map (·.toNat)) ++ [.regWrite 8 text.length]

/-- `LOADBITS` (30_encoding.md R63). -/
def loadBits (bits : List Bit) : List Input := loadFrom 2 0 (bits.map (·.toNat)) ++ [.regWrite 9 bits.length]

/-- Each bit of a sequence read from BITS_OUT and written to BITS_IN, from element `k` on. -/
def copyBitsFrom (k : Nat) : List Bit → List Input
  | [] => []
  | b :: bs => .bufRead 3 k :: .bufWrite 2 k b.toNat :: copyBitsFrom (k + 1) bs

/-- `COPYBITS` as a host makes it that finds `bits` in BITS_OUT (30_encoding.md R63). DESIGN CHOICE (log 24): the host learns
BITS_OUT_LEN by one read of register 10 before the loop; the expansion R63 lists does not say how it learns it. -/
def copyBits (bits : List Bit) : List Input :=
  .regRead 10 :: copyBitsFrom 0 bits ++ [.regWrite 9 bits.length]

/-- The format the Frame Writer is told (20_memory.md R52). -/
structure FrameFormat where
  channels : Nat
  bytesPerSample : Nat
  sampleRate : Nat
  compressed : Bool
deriving DecidableEq, Repr

/-- 1 channel, 2 bytes a sample, 22050 Hz, uncompressed (20_memory.md R52). -/
def frameFormat : FrameFormat := { channels := 1, bytesPerSample := 2, sampleRate := 22050, compressed := false }

/-- The samples the host passes the Frame Writer: SAMPLES elements `0 .. SAMPLES_LEN - 1` in index order
(20_memory.md R52). -/
def State.writerSamples (s : State) : Option (List Sample) := bufPrefix s.mem.samples s.samplesLen.toNat

/-- A sample's bytes for the Frame Writer, low byte first (20_memory.md R42). -/
def sampleBytes (v : Sample) : List Byte := [v.extractLsb' 0 8, v.extractLsb' 8 8]

end Sys2Proof.Machine
end

