-- ==== Sys2Proof/Machine/Step.lean ====
section
/-! DEFINITION. One step of the block and its host: an input, the execution of an issued command, or idling. -/

namespace Sys2Proof.Machine

/-- The execute step: the word in CMD is decoded and its command runs to completion; an illegal word completes with
IllegalCommand (70_reset_and_hazards.md R132; 60_exceptions.md R117). -/
def execute (s : State) : Host.Outcome State Fault Refusal :=
  match decodeCmd s.cmd with
  | none => .next s.completeIllegal
  | some i => exec i s

/-- One step (00_scope.md R5): a host access or reset, or the execution of one whole command. With nothing issued and
nothing pending the block is idle and keeps its state (60_exceptions.md R129; log 15, log 22, log 23). -/
def step (s : State) : Host.Outcome State Fault Refusal :=
  match s.turn with
  | .core => execute s
  | .input m rest => { s with inputs := rest }.takeInput m
  | .idle => .next s

/-- The state right after the host has issued the word `w` of `nbits` bits and waits: CMD holds it, BUSY is 1 and the
core moves next (30_encoding.md R63: the word written to CMD, then WAIT; log 11). -/
def State.withFetchWord (s : State) (nbits w : Nat) : State :=
  { s.issue (BitVec.ofNat 16 (w % 2 ^ nbits)) with inputs := coreFirst s.inputs }

end Sys2Proof.Machine
end

