-- ==== Sys2Proof/Safety.lean ====
section
/-! DEFINITION. The terms claims are made in: the invariant of the block, what the host can see, what a buffer holds,
and the shape of an encoded and of a decoded stream. -/

namespace Sys2Proof.Machine

/-- A buffer holds exactly a sequence: element `k` is `vs[k]`, and elements past its end hold no value
(10_state.md R28). -/
def HoldsExactly {α : Type} (b : List (Nat × α)) (vs : List α) : Prop := ∀ k, bufRead b k = vs[k]?

/-- STATUS has reserved bits 0 and a code of 60_exceptions.md R113: 0 to 8, or 15. -/
def StatusLegal (s : State) : Prop :=
  statusReserved s.status = 0#2 ∧ ((statusCode s.status).toNat ≤ 8 ∨ statusCode s.status = 15#4)

/-- PROF holds no profile yet or one of the two (10_state.md R23). -/
def ProfLegal (s : State) : Prop := s.prof = 0#32 ∨ s.prof = 0x003F2007#32 ∨ s.prof = 0x000F3005#32

/-- Each output buffer holds a value in exactly the elements below its length register (10_state.md R28). -/
def OutputsMatchLengths (s : State) : Prop :=
  (∀ k, (bufRead s.mem.bitsOut k).isSome = true ↔ k < s.bitsOutLen.toNat) ∧
  (∀ k, (bufRead s.mem.txtOut k).isSome = true ↔ k < s.txtOutLen.toNat) ∧
  (∀ k, (bufRead s.mem.samples k).isSome = true ↔ k < s.samplesLen.toNat)

/-- Every sample is +PEAK or -PEAK (43_synth.md R97). -/
def SamplesLegal (s : State) : Prop :=
  ∀ k v, bufRead s.mem.samples k = some v → v = 0x7FFF#16 ∨ v = 0x8001#16

/-- Every character DECODE has written lies in 32..95 (42_decode.md R95). -/
def TextLegal (s : State) : Prop :=
  ∀ k c, bufRead s.mem.txtOut k = some c → 32 ≤ c.toNat ∧ c.toNat ≤ 95

/-- Between commands SEQ is Done and AMP is +PEAK or -PEAK (10_state.md R31, R32). -/
def WorkLegal (s : State) : Prop := s.work.seq = .done ∧ (s.work.amp = 32767 ∨ s.work.amp = -32767)

/-- The error record fits the code (60_exceptions.md R114): ERR_INDEX is 0 but for IllegalCharacter, NoEndSentinel,
ParityError and LRCMismatch; ERR_CHAR is 0 but for IllegalCharacter and ParityError; ERR_SRC is 0 but for
IllegalCharacter and CapacityExceeded. -/
def RecordLegal (s : State) : Prop :=
  ((statusCode s.status).toNat ∈ [0, 2, 6, 7, 8, 15] → s.errIndex = 0#32) ∧
  ((statusCode s.status).toNat ∉ [1, 4] → s.errChar = 0#8) ∧
  ((statusCode s.status).toNat ∉ [1, 7] → statusErrSrc s.status = false)

/-- What holds of the block at reset and after every step. -/
structure Inv (s : State) : Prop where
  params : s.params.ok = true
  memory : s.mem.wf s.params = true
  status : StatusLegal s
  prof : ProfLegal s
  outputs : OutputsMatchLengths s
  samples : SamplesLegal s
  text : TextLegal s
  record : RecordLegal s
  work : WorkLegal s

/-- The state with its internal working state erased: all that the host, and any later command, can tell apart
(10_state.md R32). -/
def State.visible (s : State) : State := { s with work := Working.reset }

/-- An outcome with the internal working state of its next state erased. -/
def visibleOutcome : Host.Outcome State Fault Refusal → Host.Outcome State Fault Refusal
  | .next s => .next s.visible
  | .fault f => .fault f
  | .refused r => .refused r

/-- The core moves next: a command is issued and the host waits or has nothing to do. -/
def CoreMovesNext (s : State) : Prop :=
  s.busy = true ∧ (s.inputs = [] ∨ ∃ rest, s.inputs = .wait :: rest)

/-- A reserved command word, in the words of 30_encoding.md R60. -/
def ReservedWord (w : BitVec 16) : Prop :=
  w.toNat / 128 ≠ 0 ∨ w.toNat % 16 = 0 ∨ 5 ≤ w.toNat % 16 ∨
    ((w.toNat % 16 = 1 ∨ w.toNat % 16 = 4) ∧ w.toNat / 16 % 4 = 0)

/-- The frames of a text, in order (41_encode.md R73). -/
def framesOf (p : Profile) (text : List Byte) : List Bit := text.flatMap (frame p)

/-- The column-wise exclusive-or of the data bits of every character of a text (41_encode.md R74). -/
def lrcOf (p : Profile) (text : List Byte) : List Bit :=
  (text.map (dataBits p)).foldl xorColumns (zeros p.dataWidth)

/-- A text's frames, its LRC trailer, and the padding on both sides (41_encode.md R75, R76). -/
def framed (p : Profile) (text : List Byte) (pad : Nat) : List Bit :=
  zeros pad ++ framesOf p text ++ withParity (lrcOf p text) ++ zeros pad

/-- Every character of a text is legal under a profile (41_encode.md R70), by its code. -/
def AllLegal (p : Profile) (text : List Byte) : Prop :=
  ∀ c ∈ text, p.charBase ≤ c.toNat ∧ c.toNat ≤ p.charBase + p.maxRawValue

/-- The pattern stands at position `p` of a stream, wholly inside it (42_decode.md R84, R85). -/
def StandsAt (pat b : List Bit) (p : Nat) : Prop := p + pat.length ≤ b.length ∧ slice b p pat.length = pat

/-- The first position at which a pattern stands (42_decode.md R84). -/
def FirstAt (pat b : List Bit) (p : Nat) : Prop := StandsAt pat b p ∧ ∀ q < p, ¬StandsAt pat b q

/-- An end sentinel at or after the start and aligned to it (42_decode.md R85). -/
def AlignedEnd (b : List Bit) (start p : Nat) : Prop :=
  start ≤ p ∧ StandsAt endPattern b p ∧ (p - start) % 7 = 0

/-- END_POS: the least aligned end sentinel (42_decode.md R85). -/
def FirstAlignedEnd (b : List Bit) (start p : Nat) : Prop :=
  AlignedEnd b start p ∧ ∀ q < p, ¬AlignedEnd b start q

/-- A text the decoder can answer: `'%'` first, `'?'` last and nowhere between, every code in 32..95
(42_decode.md R96). -/
def TrackText (text : List Byte) : Prop :=
  ∃ body : List Byte, text = 37#8 :: (body ++ [63#8]) ∧ (∀ c ∈ body, 32 ≤ c.toNat ∧ c.toNat ≤ 95 ∧ c ≠ 63#8)

/-- Some element of a buffer below `n` holds no value (20_memory.md R46). -/
def Unwritten {α : Type} (b : List (Nat × α)) (n : Nat) : Prop := ∃ k < n, bufRead b k = none

/-- The host has written a buffer below its length register, and the elements are `vs` (70_reset_and_hazards.md
R136). -/
def Wrote {α : Type} (b : List (Nat × α)) (len : Word32) (vs : List α) : Prop :=
  vs.length = len.toNat ∧ ∀ k < vs.length, bufRead b k = vs[k]?

/-- A text buffer begins with the character `c` (43_synth.md R103, R104). -/
def BeginsWith (b : List (Nat × Byte)) (len : Word32) (c : Byte) : Prop :=
  1 ≤ len.toNat ∧ bufRead b 0 = some c

/-- A text buffer is empty or begins with a character other than `c` (43_synth.md R103, R104). -/
def DoesNotBeginWith (b : List (Nat × Byte)) (len : Word32) (c : Byte) : Prop :=
  len.toNat = 0 ∨ ∃ d, bufRead b 0 = some d ∧ d ≠ c

/-- The profile a text selects (40_profile.md R66): P1 after a leading `'%'`, P23 after any other character. -/
def Selects (text : List Byte) (p : Profile) : Prop :=
  ∃ c cs, text = c :: cs ∧
    ((c = 37#8 ∧ p = { bitsPerChar := 7, charBase := 32, maxRawValue := 63 }) ∨
     (c ≠ 37#8 ∧ p = { bitsPerChar := 5, charBase := 48, maxRawValue := 15 }))

/-- A stream decodes to a text: from its first start sentinel on stand the text's Track1 frames and their LRC trailer,
and the text is one the decoder can answer (42_decode.md R84 to R90). -/
def DecodesTo (b : List Bit) (out : List Byte) : Prop :=
  ∃ start, FirstAt startPattern b start ∧ TrackText out ∧
    slice b start (7 * (out.length + 1)) = framesOf profile1 out ++ withParity (lrcOf profile1 out)

/-- The column-wise exclusive-or of the data bits of the `n` 7-bit frames from `start` on (42_decode.md R89). -/
def streamLrc (b : List Bit) (start n : Nat) : List Bit :=
  ((List.range n).map fun i => slice b (start + 7 * i) 6).foldl xorColumns (zeros 6)

/-- The alternate sentinel of a SEL value (43_synth.md R102). -/
def altOf (sel : BitVec 2) : Byte := if sel = 1#2 then 59#8 else 37#8

/-- What a completed ENCODE leaves of the state it began in (10_state.md R34): BITS_OUT holds `bits`, PROF is `prof`,
STATUS and the error record are as given, and nothing else but the working state differs. -/
def EncodeLeaves (s t : State) (bits : List Bit) (prof : Word32) (st : BitVec 8) (idx : Nat) (ch : Byte) : Prop :=
  HoldsExactly t.mem.bitsOut bits ∧ t.bitsOutLen.toNat = bits.length ∧ t.errIndex.toNat = idx ∧
  t = { s with mem := { s.mem with bitsOut := t.mem.bitsOut }, bitsOutLen := t.bitsOutLen, prof := prof, status := st,
               errIndex := t.errIndex, errChar := ch, work := t.work }

/-- What a completed DECODE leaves of the state it began in (10_state.md R34): TXT_OUT holds `out`, STATUS and the
error record are as given, and nothing else but the working state differs. -/
def DecodeLeaves (s t : State) (out : List Byte) (st : BitVec 8) (idx : Nat) (ch : Byte) : Prop :=
  HoldsExactly t.mem.txtOut out ∧ t.txtOutLen.toNat = out.length ∧ t.errIndex.toNat = idx ∧
  t = { s with mem := { s.mem with txtOut := t.mem.txtOut }, txtOutLen := t.txtOutLen, status := st,
               errIndex := t.errIndex, errChar := ch, work := t.work }

/-- What a completed SYNTH leaves of the state it began in (10_state.md R34): SAMPLES holds `out`, STATUS and the error
record are as given, and nothing else but the working state differs. -/
def SynthLeaves (s t : State) (out : List Sample) (st : BitVec 8) (idx : Nat) (ch : Byte) : Prop :=
  HoldsExactly t.mem.samples out ∧ t.samplesLen.toNat = out.length ∧ t.errIndex.toNat = idx ∧
  t = { s with mem := { s.mem with samples := t.mem.samples }, samplesLen := t.samplesLen, status := st,
               errIndex := t.errIndex, errChar := ch, work := t.work }

/-- SYNTH reaches its second-pass tests on the bitstream `b`: no input length is above capacity, BITS_IN is written,
and the first pass fits SAMPLES (43_synth.md R110). -/
def SynthReady (s : State) (b : List Bit) : Prop :=
  s.bitsInLen.toNat ≤ s.params.bitsCap ∧ s.txtALen.toNat ≤ s.params.textCap ∧
  s.txtBLen.toNat ≤ s.params.textCap ∧ Wrote s.mem.bitsIn s.bitsInLen b ∧
  (emitPass s.spb.toNat 32767 b).1.length ≤ s.params.samplesCap

/-- The samples of two passes, the second from the AMP the first leaves (43_synth.md R106). -/
def twoPasses (spb : Nat) (first second : List Bit) : List Sample :=
  (emitPass spb 32767 first).1 ++ (emitPass spb (emitPass spb 32767 first).2 second).1

/-- The second-track pass of a text under a profile: reversed when REVERSE_SECONDARY is true (43_synth.md R105). -/
def secondTrackBits (P : Config.Params) (p : Profile) (text : List Byte) : List Bit :=
  if P.reverseSecondary then (framed p text 0).reverse else framed p text 0

/-- Outside a command's write set nothing changes (10_state.md R34). The internal working state is no register and no
buffer. -/
def WritesOnly (i : Instr) (s t : State) : Prop :=
  match i with
  | .resolve _ =>
    t = { s with prof := t.prof, status := t.status, errIndex := t.errIndex, errChar := t.errChar }
  | .encode =>
    t = { s with mem := { s.mem with bitsOut := t.mem.bitsOut }, bitsOutLen := t.bitsOutLen, prof := t.prof,
                 status := t.status, errIndex := t.errIndex, errChar := t.errChar, work := t.work }
  | .decode =>
    t = { s with mem := { s.mem with txtOut := t.mem.txtOut }, txtOutLen := t.txtOutLen,
                 status := t.status, errIndex := t.errIndex, errChar := t.errChar, work := t.work }
  | .synth _ _ =>
    t = { s with mem := { s.mem with samples := t.mem.samples }, samplesLen := t.samplesLen,
                 status := t.status, errIndex := t.errIndex, errChar := t.errChar, work := t.work }

/-- An outcome with another word in CMD. -/
def outcomeWithCmd (w : BitVec 16) : Host.Outcome State Fault Refusal → Host.Outcome State Fault Refusal
  | .next s => .next { s with cmd := w }
  | .fault f => .fault f
  | .refused r => .refused r

/-- Two words that differ in nothing but fields their command ignores: SEL and REV for ENCODE and DECODE, REV for
RESOLVE (30_encoding.md R60). -/
def DifferInIgnoredFields (w w' : BitVec 16) : Prop :=
  (w &&& 0xFF8F#16 = w' &&& 0xFF8F#16 ∧ (w &&& 0x000F#16 = 2#16 ∨ w &&& 0x000F#16 = 3#16)) ∨
  (w &&& 0xFFBF#16 = w' &&& 0xFFBF#16 ∧ w &&& 0x000F#16 = 1#16)

end Sys2Proof.Machine
end

