-- ==== Sys2Proof/Certificates/Slice0/Obligations.lean ====
section
/-! DEFINITION. The statements for the provers. A statement about an executed command is about `exec`, which a step
runs when the core moves next (`Obligations.StepExecutesTheDecodedCommand`). -/

open Sys2Proof Sys2Proof.Machine

/-! ## The command word -/

/-- All eleven words 30_encoding.md R63 lists decode to their commands, and so do four words with ignored fields set; five
reserved words decode to none (R60). -/
def Obligations.ListedWordsDecodeToTheirCommands : Prop :=
  decodeCmd 0x0011#16 = some (.resolve 1#2) ∧ decodeCmd 0x0021#16 = some (.resolve 2#2) ∧
  decodeCmd 0x0031#16 = some (.resolve 3#2) ∧ decodeCmd 0x0051#16 = some (.resolve 1#2) ∧
  decodeCmd 0x0002#16 = some .encode ∧ decodeCmd 0x0012#16 = some .encode ∧
  decodeCmd 0x0072#16 = some .encode ∧
  decodeCmd 0x0003#16 = some .decode ∧ decodeCmd 0x0053#16 = some .decode ∧
  decodeCmd 0x0014#16 = some (.synth 1#2 false) ∧ decodeCmd 0x0054#16 = some (.synth 1#2 true) ∧
  decodeCmd 0x0024#16 = some (.synth 2#2 false) ∧ decodeCmd 0x0064#16 = some (.synth 2#2 true) ∧
  decodeCmd 0x0034#16 = some (.synth 3#2 false) ∧ decodeCmd 0x0074#16 = some (.synth 3#2 true) ∧
  decodeCmd 0x0000#16 = none ∧ decodeCmd 0x0001#16 = none ∧ decodeCmd 0x0044#16 = none ∧
  decodeCmd 0x0082#16 = none ∧ decodeCmd 0xFFFF#16 = none

/-- Decode and encode agree (30_encoding.md R59, R60): a word decodes to a command exactly when the command is well
formed and the word is its encoding in every bit the command does not ignore. -/
def Obligations.WordDecodesExactlyWhenItsCareBitsAreTheEncoding : Prop :=
  ∀ (w : BitVec 16) (i : Instr),
    decodeCmd w = some i ↔ i.wellFormed = true ∧ w &&& i.careMask = encodeCmd i

/-- The words that decode to no command are exactly the reserved words of 30_encoding.md R60. -/
def Obligations.ReservedWordsAreExactlyThoseWithoutACommand : Prop :=
  ∀ w : BitVec 16, decodeCmd w = none ↔ ReservedWord w

/-- An issued word that decodes to no command completes with IllegalCommand and changes nothing else
(60_exceptions.md R117). -/
def Obligations.IllegalWordCompletesWithIllegalCommand : Prop :=
  ∀ s : State, CoreMovesNext s → decodeCmd s.cmd = none →
    step s = .next { s with status := 0x08#8, errIndex := 0#32, errChar := 0#8 }

/-- Two words that differ only in fields their command ignores have the same result (30_encoding.md R60). -/
def Obligations.IgnoredFieldsDoNotChangeTheResult : Prop :=
  ∀ (s : State) (w w' : BitVec 16), CoreMovesNext s → DifferInIgnoredFields w w' →
    step { s with cmd := w' } = outcomeWithCmd w' (step { s with cmd := w })

/-! ## The lifecycle of a command and the host's accesses -/

/-- The execute step runs the command the word in CMD decodes to (70_reset_and_hazards.md R132). -/
def Obligations.StepExecutesTheDecodedCommand : Prop :=
  ∀ (s : State) (i : Instr), CoreMovesNext s → decodeCmd s.cmd = some i → step s = exec i s

/-- A host write of CMD while BUSY = 0 stores the word's 16 low bits and sets BUSY, and does nothing else
(70_reset_and_hazards.md R132, 10_state.md R16 and R18). -/
def Obligations.WritingCmdWhileIdleIssuesTheCommand : Prop :=
  ∀ (s : State) (v : Nat) (rest : List Input), s.busy = false → s.inputs = .regWrite 0 v :: rest →
    step s = .next { s with inputs := rest, cmd := BitVec.ofNat 16 v, status := s.status ||| 0x80#8 }

/-- While BUSY = 1 a host access other than a read of STATUS is refused, and a read of STATUS returns it with BUSY set
and changes nothing of the block (70_reset_and_hazards.md R134). The refusal is the model's form of the spec's
"not a move of the model" (log 4). -/
def Obligations.OnlyStatusMayBeReadWhileBusy : Prop :=
  ∀ (s : State) (m : Input) (rest : List Input), s.busy = true → s.inputs = m :: rest → m ≠ .wait → m ≠ .reset →
    (m ≠ .regRead 1 → step s = .refused .hostAccessWhileBusy) ∧
    (m = .regRead 1 →
      step s = .next { s with inputs := rest, seen := s.seen ++ [.reg 1 (s.status.setWidth 32)] } ∧
      (s.status.setWidth 32).getLsbD 7 = true)

/-- Progress (70_reset_and_hazards.md R135): any number of polls of STATUS leave the block as it is but for their readings,
the step after them executes the issued word in the state they leave, and when it completes BUSY is 0. That the polls
come first is the model's choice (log 3). -/
def Obligations.IssuedCommandIsExecutedAfterThePolls : Prop :=
  ∀ (s : State) (n : Nat) (rest : List Input), s.busy = true →
    s.inputs = List.replicate n (.regRead 1) ++ rest → (rest = [] ∨ ∃ r, rest = .wait :: r) →
    Host.Core.run Sys2Proof.core n s =
      .next { s with inputs := rest, seen := s.seen ++ List.replicate n (.reg 1 (s.status.setWidth 32)) } ∧
    Host.Core.run Sys2Proof.core (n + 1) s =
      execute { s with inputs := rest, seen := s.seen ++ List.replicate n (.reg 1 (s.status.setWidth 32)) } ∧
    ∀ t, Host.Core.run Sys2Proof.core (n + 1) s = .next t → t.busy = false

/-- A host read of a register while BUSY = 0 returns it zero-extended to 32 bits, 0 for an index of 13 or above, and
has no other effect (20_memory.md R38, R44). WAIT while BUSY = 0 is one read of STATUS, with no other effect
(30_encoding.md R62); that its poll is recorded, and that it is one input, is the model's choice (log 10). -/
def Obligations.RegisterReadReturnsTheRegister : Prop :=
  (∀ (s : State) (rest : List Input), s.busy = false → s.inputs = .wait :: rest →
    step s = .next { s with inputs := rest, seen := s.seen ++ [.reg 1 (s.status.setWidth 32)] }) ∧
  ∀ (s : State) (i : Nat) (rest : List Input), s.busy = false → s.inputs = .regRead i :: rest →
    ∃ v : Word32, step s = .next { s with inputs := rest, seen := s.seen ++ [.reg i v] } ∧
      (i = 0 → v.toNat = s.cmd.toNat) ∧ (i = 1 → v.toNat = s.status.toNat) ∧ (i = 2 → v = s.errIndex) ∧
      (i = 3 → v.toNat = s.errChar.toNat) ∧ (i = 4 → v.toNat = s.pad.toNat) ∧ (i = 5 → v.toNat = s.spb.toNat) ∧
      (i = 6 → v = s.prof) ∧ (i = 7 → v = s.txtALen) ∧ (i = 8 → v = s.txtBLen) ∧ (i = 9 → v = s.bitsInLen) ∧
      (i = 10 → v = s.bitsOutLen) ∧ (i = 11 → v = s.txtOutLen) ∧ (i = 12 → v = s.samplesLen) ∧ (13 ≤ i → v = 0#32)

/-- Host writes to RO registers and to indices of 13 or above change no state, a write to an RW register stores the value's
low bits, and no register, CMD or other, can be written while BUSY = 1 (10_state.md R18, R26; 20_memory.md R38;
70_reset_and_hazards.md R134). That such a write is refused is the model's choice (log 4). -/
def Obligations.RegisterWriteTruncatesOrIsIgnored : Prop :=
  ∀ (s : State) (i v : Nat) (rest : List Input), s.inputs = .regWrite i v :: rest →
    (s.busy = true → ∀ t, step s ≠ .next t) ∧
    (s.busy = false →
      (i = 0 → ∃ t, step s = .next t ∧ t.cmd.toNat = v % 2 ^ 16) ∧
      (i = 4 → step s = .next { s with inputs := rest, pad := BitVec.ofNat 16 v }) ∧
      (i = 5 → step s = .next { s with inputs := rest, spb := BitVec.ofNat 16 v }) ∧
      (i = 7 → step s = .next { s with inputs := rest, txtALen := BitVec.ofNat 32 v }) ∧
      (i = 8 → step s = .next { s with inputs := rest, txtBLen := BitVec.ofNat 32 v }) ∧
      (i = 9 → step s = .next { s with inputs := rest, bitsInLen := BitVec.ofNat 32 v }) ∧
      (i ∉ [0, 4, 5, 7, 8, 9] → step s = .next { s with inputs := rest }))

/-- A host write of a buffer element below capacity, while BUSY = 0 (20_memory.md R40): in TXT_A, TXT_B and BITS_IN the
element then holds the value truncated to its width and every other element of every buffer is as before; in a
read-only buffer nothing changes. -/
def Obligations.BufferWriteSetsOneElementOrNothing : Prop :=
  ∀ (s : State) (b k v : Nat) (id : BufId) (rest : List Input), s.busy = false →
    s.inputs = .bufWrite b k v :: rest → BufId.ofIndex b = some id → k < id.capacity s.params →
    ∃ m : Memory, step s = .next { s with inputs := rest, mem := m } ∧
      (∀ id' k', (id', k') ≠ (id, k) → m.read id' k' = s.mem.read id' k') ∧
      (b = 0 ∨ b = 1 → m.read id k = some (.char (BitVec.ofNat 8 v))) ∧
      (b = 2 → m.read id k = some (.bit (v % 2 == 1))) ∧
      (3 ≤ b → m = s.mem)

/-- A host read of a buffer element below capacity, while BUSY = 0, returns the whole element, or faults where it holds
no value (20_memory.md R40, 10_state.md R28). That the fault ends the run is the model's choice (log 5). -/
def Obligations.BufferReadReturnsTheElementOrFaults : Prop :=
  ∀ (s : State) (b k : Nat) (id : BufId) (rest : List Input), s.busy = false →
    s.inputs = .bufRead b k :: rest → BufId.ofIndex b = some id → k < id.capacity s.params →
    (∀ e, s.mem.read id k = some e → step s = .next { s with inputs := rest, seen := s.seen ++ [.elem b k e] }) ∧
    (s.mem.read id k = none → step s = .fault .hostReadNoValue)

/-- A host access at or above a buffer's capacity, or to a buffer id of 6 or above, is a fault
(20_memory.md R39, R43). That the fault ends the run, and that a write to a read-only buffer past capacity faults too,
is the model's choice (log 5, log 9). -/
def Obligations.BufferAccessPastCapacityFaults : Prop :=
  ∀ (s : State) (b k v : Nat) (rest : List Input), s.busy = false →
    (s.inputs = .bufRead b k :: rest ∨ s.inputs = .bufWrite b k v :: rest) →
    (6 ≤ b ∨ ∃ id, BufId.ofIndex b = some id ∧ id.capacity s.params ≤ k) →
    step s = .fault .hostPastCapacity

/-- Asserting reset at any time, busy or not, gives every register and buffer its reset value
(70_reset_and_hazards.md R130, 10_state.md R36). That the parameters and the host's inputs and readings stay is the
model's choice (log 12). -/
def Obligations.ResetInputRestoresTheResetState : Prop :=
  ∀ (s : State) (rest : List Input), s.inputs = .reset :: rest →
    ∃ t, step s = .next t ∧ t.cmd = 0x0000#16 ∧ t.status = 0x0F#8 ∧ t.errIndex = 0#32 ∧ t.errChar = 0#8 ∧
      t.pad = 25#16 ∧ t.spb = 15#16 ∧ t.prof = 0x00000000#32 ∧ t.txtALen = 0#32 ∧ t.txtBLen = 0#32 ∧
      t.bitsInLen = 0#32 ∧ t.bitsOutLen = 0#32 ∧ t.txtOutLen = 0#32 ∧ t.samplesLen = 0#32 ∧
      (∀ id k, t.mem.read id k = none) ∧ t.params = s.params ∧ t.inputs = rest ∧ t.seen = s.seen

/-- The machine right after reset is as 10_state.md R36 tabulates it; what the table calls not defined is not
stated. -/
def Obligations.ResetStateIsTheTabulatedOne : Prop :=
  State.reset.cmd = 0x0000#16 ∧ State.reset.status = 0x0F#8 ∧ statusCode State.reset.status = 15#4 ∧
  statusErrSrc State.reset.status = false ∧ State.reset.busy = false ∧
  State.reset.errIndex = 0#32 ∧ State.reset.errChar = 0#8 ∧ State.reset.pad = 25#16 ∧ State.reset.spb = 15#16 ∧
  State.reset.prof = 0x00000000#32 ∧ State.reset.txtALen = 0#32 ∧ State.reset.txtBLen = 0#32 ∧
  State.reset.bitsInLen = 0#32 ∧ State.reset.bitsOutLen = 0#32 ∧ State.reset.txtOutLen = 0#32 ∧
  State.reset.samplesLen = 0#32 ∧ ∀ id k, State.reset.mem.read id k = none

/-- With no command issued and no input the block is idle and keeps all its state (60_exceptions.md R129). That a step
then answers the same state is the model's choice (log 23). -/
def Obligations.IdleBlockKeepsItsState : Prop :=
  ∀ s : State, s.busy = false → s.inputs = [] → step s = .next s

/-! ## RESOLVE -/

/-- RESOLVE writes the selected TrackProfile to PROF, completes with OK, and changes nothing else
(40_profile.md R69). -/
def Obligations.ResolveWritesTheSelectedProfile : Prop :=
  ∀ (s : State) (sel : BitVec 2), sel ≠ 0#2 →
    exec (.resolve sel) s =
      .next { s with prof := if sel = 1#2 then 0x003F2007#32 else 0x000F3005#32, status := 0x00#8,
                     errIndex := 0#32, errChar := 0#8 }

/-- Track3 has Track2's profile and Track1 has another (40_profile.md R67). -/
def Obligations.Track3HasTheProfileOfTrack2 : Prop :=
  profile .track2 = profile .track3 ∧ profile .track1 ≠ profile .track2 ∧
  ∀ s : State, exec (.resolve 2#2) s = exec (.resolve 3#2) s ∧ exec (.resolve 1#2) s ≠ exec (.resolve 2#2) s

/-! ## ENCODE -/

/-- ENCODE of a written text of legal characters that fits (41_encode.md R80): BITS_OUT holds its frames, LRC trailer
and padding, PROF its profile, and the command completes with OK; nothing else changes. -/
def Obligations.EncodeStoresTheFramedText : Prop :=
  ∀ (s : State) (text : List Byte) (p : Profile), s.params.ok = true →
    s.txtALen.toNat ≤ s.params.textCap → Wrote s.mem.txtA s.txtALen text → Selects text p → AllLegal p text →
    (framed p text s.pad.toNat).length ≤ s.params.bitsCap →
    ∃ t, exec .encode s = .next t ∧ EncodeLeaves s t (framed p text s.pad.toNat) (packProf p) 0x00#8 0 0#8

/-- ENCODE with TXT_A_LEN above TEXT_CAP ends with CapacityExceeded, and with TXT_A_LEN = 0 with EmptyInput, PROF kept
in both (41_encode.md R80). -/
def Obligations.EncodeRejectsTooLongAndEmptyText : Prop :=
  ∀ s : State,
    (s.params.textCap < s.txtALen.toNat →
      ∃ t, exec .encode s = .next t ∧ EncodeLeaves s t [] s.prof 0x07#8 0 0#8) ∧
    (s.txtALen.toNat = 0 → ∃ t, exec .encode s = .next t ∧ EncodeLeaves s t [] s.prof 0x06#8 0 0#8)

/-- ENCODE reports the first character outside its profile, with its index and code, after PROF is written
(41_encode.md R70, R80). -/
def Obligations.EncodeReportsTheFirstIllegalCharacter : Prop :=
  ∀ (s : State) (before after : List Byte) (c : Byte) (p : Profile), s.txtALen.toNat ≤ s.params.textCap →
    Wrote s.mem.txtA s.txtALen (before ++ c :: after) → Selects (before ++ c :: after) p → AllLegal p before →
    ¬AllLegal p [c] →
    ∃ t, exec .encode s = .next t ∧ EncodeLeaves s t [] (packProf p) 0x01#8 before.length c

/-- ENCODE of a legal text whose bitstream is longer than BITS_CAP ends with CapacityExceeded, after PROF is written
(41_encode.md R80). -/
def Obligations.EncodeRejectsATooLongBitstream : Prop :=
  ∀ (s : State) (text : List Byte) (p : Profile), s.txtALen.toNat ≤ s.params.textCap →
    Wrote s.mem.txtA s.txtALen text → Selects text p → AllLegal p text →
    s.params.bitsCap < (framed p text s.pad.toNat).length →
    ∃ t, exec .encode s = .next t ∧ EncodeLeaves s t [] (packProf p) 0x07#8 0 0#8

/-- An ENCODE that ends with an error leaves BITS_OUT_LEN = 0 and every BITS_OUT element holding no value
(41_encode.md R81). -/
def Obligations.FailedEncodeLeavesNoBitstream : Prop :=
  ∀ s t : State, exec .encode s = .next t → statusCode t.status ≠ 0#4 →
    t.bitsOutLen = 0#32 ∧ ∀ k, bufRead t.mem.bitsOut k = none

/-- The length of an encoded text, and where its first frame and trailer stand without padding (41_encode.md R79). -/
def Obligations.EncodedTextHasTheStatedLength : Prop :=
  ∀ (text : List Byte) (p : Profile) (pad : Nat), Selects text p → AllLegal p text →
    ∃ bits, encodeText text pad = .ok (bits, p) ∧
      bits.length = 2 * pad + (text.length + 1) * p.bitsPerChar ∧
      (pad = 0 → (∀ c, text.head? = some c → slice bits 0 p.bitsPerChar = frame p c) ∧
        slice bits (text.length * p.bitsPerChar) p.bitsPerChar = withParity (lrcOf p text))

/-- Every frame and the trailer have odd population; each trailer column is the exclusive-or of that column over the
character frames; and the greatest raw value of each profile is legal while the next is not (41_encode.md R82). -/
def Obligations.EncodedFramesAreOddAndTheTrailerTheirXor : Prop :=
  (∀ (text : List Byte) (pad : Nat) (bits : List Bit) (p : Profile), encodeText text pad = .ok (bits, p) →
    (∀ j ≤ text.length, bitSum (slice bits (pad + j * p.bitsPerChar) p.bitsPerChar) % 2 = 1) ∧
    (∀ i < p.bitsPerChar - 1,
      bits[pad + text.length * p.bitsPerChar + i]? =
        some ((List.range text.length).countP
          (fun j => bits[pad + j * p.bitsPerChar + i]? == some true) % 2 == 1))) ∧
  (∀ pad : Nat,
    (∃ r, encodeText [37#8, 95#8] pad = .ok r) ∧
    encodeText [37#8, 96#8] pad = .error { code := .illegalCharacter, index := 1, char := 96#8, src := false } ∧
    (∃ r, encodeText [63#8] pad = .ok r) ∧
    encodeText [64#8] pad = .error { code := .illegalCharacter, index := 0, char := 64#8, src := false })

/-! ## DECODE -/

/-- START_POS is the first position of `1010001`, the frame of `'%'`; without one DECODE ends with NoStartSentinel
(42_decode.md R84). -/
def Obligations.StartSearchFindsTheFirstStartPattern : Prop :=
  startPattern = frame profile1 37#8 ∧
  (∀ (b : List Bit) (p : Nat),
    findStart b = some p ↔ FirstAt [true, false, true, false, false, false, true] b p) ∧
  (∀ (s : State) (b : List Bit), s.bitsInLen.toNat ≤ s.params.bitsCap → Wrote s.mem.bitsIn s.bitsInLen b →
    (∀ p, ¬StandsAt [true, false, true, false, false, false, true] b p) →
    ∃ t, exec .decode s = .next t ∧ statusCode t.status = 2#4)

/-- The end search's loop finds the least aligned end pattern at or after START_POS and fails exactly when there is
none; DECODE then ends with NoEndSentinel (42_decode.md R85). -/
def Obligations.EndSearchFindsTheLeastAlignedEndPattern : Prop :=
  (∀ (b : List Bit) (start : Nat),
    (∀ p, findEnd b start = some p ↔ FirstAlignedEnd b start p) ∧
    (findEnd b start = none ↔ ∀ p, ¬AlignedEnd b start p)) ∧
  (∀ (s : State) (b : List Bit) (start : Nat), s.bitsInLen.toNat ≤ s.params.bitsCap →
    Wrote s.mem.bitsIn s.bitsInLen b → FirstAt startPattern b start → (∀ p, ¬AlignedEnd b start p) →
    ∃ t, exec .decode s = .next t ∧ statusCode t.status = 3#4)

/-- DECODE accepts exactly the streams in which, from the first start sentinel on, the Track1 frames of a `%...?` text
stand with their LRC trailer, and answers that text (42_decode.md R84 to R92). -/
def Obligations.DecodeAcceptsExactlyTheFramedTexts : Prop :=
  ∀ (b : List Bit) (out : List Byte), decodeBits b = .ok out ↔ DecodesTo b out

/-- DECODE of a written stream that decodes to a text that fits: TXT_OUT holds the text, the command completes with OK,
and nothing else changes (42_decode.md R93). -/
def Obligations.DecodeStoresTheDecodedText : Prop :=
  ∀ (s : State) (b : List Bit) (out : List Byte), s.params.ok = true → s.bitsInLen.toNat ≤ s.params.bitsCap →
    Wrote s.mem.bitsIn s.bitsInLen b → DecodesTo b out → out.length ≤ s.params.textCap →
    ∃ t, exec .decode s = .next t ∧ DecodeLeaves s t out 0x00#8 0 0#8

/-- The errors of DECODE's four steps, each with the position and character it reports, in the order of the steps
(42_decode.md R84, R85, R88, R90; 60_exceptions.md R114, R120). -/
def Obligations.DecodeReportsTheFirstFailingStep : Prop :=
  ∀ (s : State) (b : List Bit), s.bitsInLen.toNat ≤ s.params.bitsCap → Wrote s.mem.bitsIn s.bitsInLen b →
    ((∀ p, ¬StandsAt startPattern b p) →
      ∃ t, exec .decode s = .next t ∧ DecodeLeaves s t [] 0x02#8 0 0#8) ∧
    (∀ start, FirstAt startPattern b start →
      ((∀ p, ¬AlignedEnd b start p) →
        ∃ t, exec .decode s = .next t ∧ DecodeLeaves s t [] 0x03#8 start 0#8) ∧
      (∀ stop, FirstAlignedEnd b start stop →
        (∀ m, start + 7 * m ≤ stop → (∀ i < m, bitSum (slice b (start + 7 * i) 7) % 2 = 1) →
          bitSum (slice b (start + 7 * m) 7) % 2 = 0 →
          ∃ t, exec .decode s = .next t ∧
            DecodeLeaves s t [] 0x04#8 (start + 7 * m)
              (BitVec.ofNat 8 (32 + valueLsbFirst (slice b (start + 7 * m) 6)))) ∧
        ((∀ i, start + 7 * i ≤ stop → bitSum (slice b (start + 7 * i) 7) % 2 = 1) →
          slice b (stop + 7) 7 ≠ withParity (streamLrc b start ((stop - start) / 7 + 1)) →
          ∃ t, exec .decode s = .next t ∧ DecodeLeaves s t [] 0x05#8 (stop + 7) 0#8)))

/-- DECODE with BITS_IN_LEN above BITS_CAP, and with a decoded text longer than TEXT_CAP, ends with CapacityExceeded
(42_decode.md R93). -/
def Obligations.DecodeRejectsWhatExceedsCapacity : Prop :=
  ∀ s : State,
    (s.params.bitsCap < s.bitsInLen.toNat →
      ∃ t, exec .decode s = .next t ∧ DecodeLeaves s t [] 0x07#8 0 0#8) ∧
    (∀ b out, s.bitsInLen.toNat ≤ s.params.bitsCap → Wrote s.mem.bitsIn s.bitsInLen b → DecodesTo b out →
      s.params.textCap < out.length →
      ∃ t, exec .decode s = .next t ∧ DecodeLeaves s t [] 0x07#8 0 0#8)

/-- A DECODE that ends with an error leaves TXT_OUT_LEN = 0 and every TXT_OUT element holding no value
(42_decode.md R94). -/
def Obligations.FailedDecodeLeavesNoText : Prop :=
  ∀ s t : State, exec .decode s = .next t → statusCode t.status ≠ 0#4 →
    t.txtOutLen = 0#32 ∧ ∀ k, bufRead t.mem.txtOut k = none

/-- The shape of a decoded text: one character per frame from START_POS to END_POS, at least two, `'%'` first, `'?'`
last, every one in 32..95 (42_decode.md R95). -/
def Obligations.DecodedTextHasTheStatedShape : Prop :=
  ∀ (s t : State) (b : List Bit) (start stop : Nat), s.params.ok = true → Wrote s.mem.bitsIn s.bitsInLen b →
    exec .decode s = .next t → statusCode t.status = 0#4 → FirstAt startPattern b start →
    FirstAlignedEnd b start stop →
    t.txtOutLen.toNat = (stop - start) / 7 + 1 ∧ 2 ≤ t.txtOutLen.toNat ∧
    bufRead t.mem.txtOut 0 = some 37#8 ∧ bufRead t.mem.txtOut (t.txtOutLen.toNat - 1) = some 63#8 ∧
    ∀ k < t.txtOutLen.toNat, ∃ c, bufRead t.mem.txtOut k = some c ∧ 32 ≤ c.toNat ∧ c.toNat ≤ 95

/-- Zeros before the start sentinel and any bits after the trailer do not affect the decoded text
(42_decode.md R91). -/
def Obligations.PaddingAndTrailingBitsDoNotAffectTheText : Prop :=
  ∀ (b tail : List Bit) (out : List Byte) (n : Nat), decodeBits b = .ok out →
    decodeBits (zeros n ++ b ++ tail) = .ok out

/-- The round trip, restated (42_decode.md R96): encoding and then decoding a text gives it back exactly when it is a
`%...?` text with no other `'?'` and every code in 32..95, whatever the padding. -/
def Obligations.RoundTripHoldsExactlyForTrackTexts : Prop :=
  ∀ (text : List Byte) (pad : Nat),
    (∃ bits p, encodeText text pad = .ok (bits, p) ∧ decodeBits bits = .ok text) ↔ TrackText text

/-- The round trip on the machine: after an ENCODE that completes with OK, a host that copies the elements of BITS_OUT below
BITS_OUT_LEN, and that length, to BITS_IN, as COPYBITS does, gets the `%...?` text of TXT_A back from DECODE, whatever
BITS_IN holds further on (42_decode.md R96, 30_encoding.md R63, 70_reset_and_hazards.md R138). -/
def Obligations.DecodeOfTheCopiedEncodingRestoresTheText : Prop :=
  ∀ (s t : State) (text : List Byte) (copied : List (Nat × Bit)), s.params.ok = true →
    Wrote s.mem.txtA s.txtALen text → TrackText text → exec .encode s = .next t → statusCode t.status = 0#4 →
    (∀ k < t.bitsOutLen.toNat, bufRead copied k = bufRead t.mem.bitsOut k) →
    ∃ u, exec .decode { t with mem := { t.mem with bitsIn := copied }, bitsInLen := t.bitsOutLen } = .next u ∧
      statusCode u.status = 0#4 ∧ u.txtOutLen = s.txtALen ∧ HoldsExactly u.mem.txtOut text

/-! ## SYNTH -/

/-- A 1 bit inverts AMP twice, each time followed by SPB div 4 samples, and leaves AMP as it was (43_synth.md R99); a
0 bit inverts it once, followed by SPB div 2 samples (R100). -/
def Obligations.BitsEmitTheirRuns : Prop :=
  ∀ (spb : Nat) (amp : Int),
    emitBit spb amp true =
      (List.replicate (spb / 4) (BitVec.ofInt 16 (-amp)) ++ List.replicate (spb / 4) (BitVec.ofInt 16 amp), amp) ∧
    emitBit spb amp false = (List.replicate (spb / 2) (BitVec.ofInt 16 (-amp)), -amp)

/-- A pass emits its bits left to right from the AMP the bits before leave, and over `m` bits with `w` ones appends
`2*w*h1 + (m - w)*h0` samples; each 0 bit leaves AMP inverted (43_synth.md R101). -/
def Obligations.PassEmitsItsBitsInOrder : Prop :=
  ∀ (spb : Nat) (amp : Int) (bits more : List Bit),
    emitPass spb amp (bits ++ more) =
      ((emitPass spb amp bits).1 ++ (emitPass spb (emitPass spb amp bits).2 more).1,
        (emitPass spb (emitPass spb amp bits).2 more).2) ∧
    (∀ bit, emitPass spb amp [bit] = emitBit spb amp bit) ∧
    (emitPass spb amp bits).1.length =
      2 * bitSum bits * (spb / 4) + (bits.length - bitSum bits) * (spb / 2) ∧
    (emitPass spb amp bits).2 = if (bits.length - bitSum bits) % 2 = 0 then amp else -amp

/-- With SPB <= 3 a 1 bit appends nothing, with SPB <= 1 a 0 bit appends nothing but inverts AMP, and then SYNTH leaves
SAMPLES_LEN = 0 whenever it completes with OK (43_synth.md R108). -/
def Obligations.TinySamplesPerBitEmitNothing : Prop :=
  (∀ (spb : Nat) (amp : Int), (spb ≤ 3 → emitBit spb amp true = ([], amp)) ∧
    (spb ≤ 1 → emitBit spb amp false = ([], -amp) ∧ ∀ bits, (emitPass spb amp bits).1 = [])) ∧
  ∀ (s t : State) (sel : BitVec 2) (rev : Bool), s.spb.toNat ≤ 1 → exec (.synth sel rev) s = .next t →
    statusCode t.status = 0#4 → t.samplesLen = 0#32

/-- A 0 bit emits SPB div 2 samples and a 1 bit 2 * (SPB div 4); these are equal exactly when SPB mod 4 is 0 or 1, and
differ as 7 and 6 at SPB = 15. A bit emits its runs one by one, each begun by one inversion of AMP, and a 0 bit has one
run and a 1 bit two, for every SPB, those of no samples included (43_synth.md R111). -/
def Obligations.BitPeriodsAreEqualExactlyForSpbModFour : Prop :=
  ∀ (spb : Nat) (amp : Int),
    (emitBit spb amp false).1.length = spb / 2 ∧ (emitBit spb amp true).1.length = 2 * (spb / 4) ∧
    ((emitBit spb amp false).1.length = (emitBit spb amp true).1.length ↔ spb % 4 = 0 ∨ spb % 4 = 1) ∧
    ((emitBit 15 amp false).1.length = 7 ∧ (emitBit 15 amp true).1.length = 6) ∧
    (∀ bit, emitBit spb amp bit = emitRuns amp (bitRuns spb bit)) ∧
    (emitRuns amp [] = ([], amp) ∧ ∀ n runs, emitRuns amp (n :: runs) =
      (List.replicate n (BitVec.ofInt 16 (-amp)) ++ (emitRuns (-amp) runs).1, (emitRuns (-amp) runs).2)) ∧
    (bitRuns spb false).length = 1 ∧ (bitRuns spb true).length = 2

/-- SYNTH stops after the first pass when TXT_B does not begin with the alternate sentinel and REV = 0 or TXT_A does not
begin with it: SAMPLES holds the pass over BITS_IN, and nothing else changes (43_synth.md R103, R104, R110). -/
def Obligations.SynthStopsAfterTheFirstPass : Prop :=
  ∀ (s : State) (sel : BitVec 2) (rev : Bool) (b : List Bit), s.params.ok = true → sel ≠ 0#2 → SynthReady s b →
    DoesNotBeginWith s.mem.txtB s.txtBLen (altOf sel) →
    (rev = false ∨ DoesNotBeginWith s.mem.txtA s.txtALen (altOf sel)) →
    ∃ t, exec (.synth sel rev) s = .next t ∧ SynthLeaves s t (emitPass s.spb.toNat 32767 b).1 0x00#8 0 0#8

/-- SYNTH with REV = 1 and TXT_A beginning with the alternate sentinel adds a pass over BITS_IN reversed, from the AMP
the first pass left (43_synth.md R104, R105, R106, R110). -/
def Obligations.SynthAddsTheReversedPrimaryPass : Prop :=
  ∀ (s : State) (sel : BitVec 2) (b : List Bit), s.params.ok = true → sel ≠ 0#2 → SynthReady s b →
    DoesNotBeginWith s.mem.txtB s.txtBLen (altOf sel) → BeginsWith s.mem.txtA s.txtALen (altOf sel) →
    (twoPasses s.spb.toNat b b.reverse).length ≤ s.params.samplesCap →
    ∃ t, exec (.synth sel true) s = .next t ∧ SynthLeaves s t (twoPasses s.spb.toNat b b.reverse) 0x00#8 0 0#8

/-- SYNTH with TXT_B beginning with the alternate sentinel adds a pass over TXT_B's encoding with padding 0, whatever REV
and PAD (43_synth.md R103, R105, R106, R110). -/
def Obligations.SynthAddsTheSecondTrackPass : Prop :=
  ∀ (s : State) (sel : BitVec 2) (rev : Bool) (b : List Bit) (text : List Byte) (p : Profile), s.params.ok = true →
    sel ≠ 0#2 → SynthReady s b → Wrote s.mem.txtB s.txtBLen text → text.head? = some (altOf sel) →
    Selects text p → AllLegal p text → (framed p text 0).length ≤ s.params.bitsCap →
    (twoPasses s.spb.toNat b (secondTrackBits s.params p text)).length ≤ s.params.samplesCap →
    ∃ t, exec (.synth sel rev) s = .next t ∧
      SynthLeaves s t (twoPasses s.spb.toNat b (secondTrackBits s.params p text)) 0x00#8 0 0#8

/-- A second-track payload with an illegal character ends SYNTH with IllegalCharacter, ERR_SRC = 1, its index and its
code, and the first pass is kept; after every other error SAMPLES holds nothing (43_synth.md R107). -/
def Obligations.FailedSecondTrackKeepsTheFirstPass : Prop :=
  (∀ (s : State) (sel : BitVec 2) (rev : Bool) (b : List Bit) (before after : List Byte) (c : Byte) (p : Profile),
    s.params.ok = true → sel ≠ 0#2 → SynthReady s b → Wrote s.mem.txtB s.txtBLen (before ++ c :: after) →
    (before ++ c :: after).head? = some (altOf sel) → Selects (before ++ c :: after) p → AllLegal p before →
    ¬AllLegal p [c] →
    ∃ t, exec (.synth sel rev) s = .next t ∧
      SynthLeaves s t (emitPass s.spb.toNat 32767 b).1 0x11#8 before.length c) ∧
  (∀ (s t : State) (sel : BitVec 2) (rev : Bool), sel ≠ 0#2 → exec (.synth sel rev) s = .next t →
    statusCode t.status ≠ 0#4 → t.status ≠ 0x11#8 →
    t.samplesLen = 0#32 ∧ ∀ k, bufRead t.mem.samples k = none)

/-- SYNTH's four CapacityExceeded cases: an input length, the first pass, the secondary bitstream (ERR_SRC = 1), and the
two passes together (43_synth.md R110, 60_exceptions.md R120). -/
def Obligations.SynthRejectsWhatExceedsCapacity : Prop :=
  ∀ (s : State) (sel : BitVec 2) (rev : Bool), sel ≠ 0#2 →
    (s.params.bitsCap < s.bitsInLen.toNat ∨ s.params.textCap < s.txtALen.toNat ∨
      s.params.textCap < s.txtBLen.toNat →
      ∃ t, exec (.synth sel rev) s = .next t ∧ SynthLeaves s t [] 0x07#8 0 0#8) ∧
    (∀ b, s.bitsInLen.toNat ≤ s.params.bitsCap → s.txtALen.toNat ≤ s.params.textCap →
      s.txtBLen.toNat ≤ s.params.textCap → Wrote s.mem.bitsIn s.bitsInLen b →
      s.params.samplesCap < (emitPass s.spb.toNat 32767 b).1.length →
      ∃ t, exec (.synth sel rev) s = .next t ∧ SynthLeaves s t [] 0x07#8 0 0#8) ∧
    (∀ b text p, SynthReady s b → Wrote s.mem.txtB s.txtBLen text → text.head? = some (altOf sel) →
      Selects text p → AllLegal p text →
      (s.params.bitsCap < (framed p text 0).length →
        ∃ t, exec (.synth sel rev) s = .next t ∧ SynthLeaves s t [] 0x17#8 0 0#8) ∧
      ((framed p text 0).length ≤ s.params.bitsCap →
        s.params.samplesCap < (twoPasses s.spb.toNat b (secondTrackBits s.params p text)).length →
        ∃ t, exec (.synth sel rev) s = .next t ∧ SynthLeaves s t [] 0x07#8 0 0#8)) ∧
    (∀ b, SynthReady s b → DoesNotBeginWith s.mem.txtB s.txtBLen (altOf sel) → rev = true →
      BeginsWith s.mem.txtA s.txtALen (altOf sel) →
      s.params.samplesCap < (twoPasses s.spb.toNat b b.reverse).length →
      ∃ t, exec (.synth sel rev) s = .next t ∧ SynthLeaves s t [] 0x07#8 0 0#8)

/-! ## Every command -/

/-- Every command completes when the host has written every input element below the length registers, and BUSY is then
0 (70_reset_and_hazards.md R133, R135, R136). A RESOLVE or SYNTH term with SEL = 0, which no word decodes to, is
included: that it completes with IllegalCommand is log 14. -/
def Obligations.CommandsCompleteOnWrittenInputs : Prop :=
  ∀ (i : Instr) (s : State), ¬Unwritten s.mem.txtA s.txtALen.toNat → ¬Unwritten s.mem.txtB s.txtBLen.toNat →
    ¬Unwritten s.mem.bitsIn s.bitsInLen.toNat → ∃ t, exec i s = .next t ∧ t.busy = false

/-- RESOLVE never faults; ENCODE and DECODE fault exactly when their input length is within capacity and an element below
it holds no value; and no command is ever refused (20_memory.md R45, R46). That the fault ends the run is log 5. -/
def Obligations.ResolveEncodeDecodeFaultExactlyOnUnwrittenInput : Prop :=
  ∀ (s : State) (f : Fault),
    (∀ sel, exec (.resolve sel) s ≠ .fault f) ∧
    (exec .encode s = .fault f ↔ f = .commandInputNoValue ∧ s.txtALen.toNat ≤ s.params.textCap ∧
      Unwritten s.mem.txtA s.txtALen.toNat) ∧
    (exec .decode s = .fault f ↔ f = .commandInputNoValue ∧ s.bitsInLen.toNat ≤ s.params.bitsCap ∧
      Unwritten s.mem.bitsIn s.bitsInLen.toNat) ∧
    ∀ i r, exec i s ≠ .refused r

/-- SYNTH faults exactly when an element its pseudocode reads holds no value: in BITS_IN; TXT_B[0] when TXT_B_LEN >= 1;
the rest of TXT_B in the secondary branch; TXT_A[0] when REV = 1, TXT_A_LEN >= 1 and the secondary branch is not taken
(20_memory.md R45, R46). That the capacity checks come before the reads is log 16. -/
def Obligations.SynthFaultsExactlyOnUnwrittenInput : Prop :=
  ∀ (s : State) (sel : BitVec 2) (rev : Bool) (f : Fault), sel ≠ 0#2 →
    (exec (.synth sel rev) s = .fault f ↔ f = .commandInputNoValue ∧
      s.bitsInLen.toNat ≤ s.params.bitsCap ∧ s.txtALen.toNat ≤ s.params.textCap ∧
      s.txtBLen.toNat ≤ s.params.textCap ∧
      (Unwritten s.mem.bitsIn s.bitsInLen.toNat ∨
       ∃ b, SynthReady s b ∧
        ((1 ≤ s.txtBLen.toNat ∧ bufRead s.mem.txtB 0 = none) ∨
         (BeginsWith s.mem.txtB s.txtBLen (altOf sel) ∧ Unwritten s.mem.txtB s.txtBLen.toNat) ∨
         (DoesNotBeginWith s.mem.txtB s.txtBLen (altOf sel) ∧ rev = true ∧ 1 ≤ s.txtALen.toNat ∧
          bufRead s.mem.txtA 0 = none))))

/-- Each command writes only its own write set (10_state.md R34). -/
def Obligations.CommandsWriteOnlyTheirWriteSets : Prop :=
  (∀ (i : Instr) (s t : State), exec i s = .next t → WritesOnly i s t) ∧
  (∀ s t : State, CoreMovesNext s → decodeCmd s.cmd = none → step s = .next t →
    t = { s with status := t.status, errIndex := t.errIndex, errChar := t.errChar })

/-- Every completion leaves a legal STATUS with BUSY = 0 and an error record that fits its code
(60_exceptions.md R113, R114). -/
def Obligations.CompletionsLeaveAFittingErrorRecord : Prop :=
  ∀ (i : Instr) (s t : State), exec i s = .next t →
    t.busy = false ∧ statusReserved t.status = 0#2 ∧ (statusCode t.status).toNat ≤ 8 ∧ RecordLegal t

/-- SYNTH only ever leaves +32767 and -32767 in SAMPLES, never -32768 (43_synth.md R97). -/
def Obligations.SamplesAreOnlyPlusOrMinusPeak : Prop :=
  ∀ (s t : State) (sel : BitVec 2) (rev : Bool), sel ≠ 0#2 → exec (.synth sel rev) s = .next t →
    ∀ k v, bufRead t.mem.samples k = some v → v.toInt = 32767 ∨ v.toInt = -32767

/-- Nothing a step shows depends on the internal working state: none of it survives from one command to the next
(10_state.md R14, R32). -/
def Obligations.WorkingStateNeverShows : Prop :=
  ∀ (s : State) (w : Working), visibleOutcome (step { s with work := w }) = visibleOutcome (step s)

/-- No step changes the parameters of the block (10_state.md R14; that State carries them is log 1). -/
def Obligations.StepsKeepTheParameters : Prop :=
  ∀ s t : State, step s = .next t → t.params = s.params

/-- The invariant holds at reset. Its clauses on the working state and the parameters rest on the model's values for
them (log 1, log 6). -/
def Obligations.ResetMeetsTheInvariant : Prop := Inv State.reset

/-- Every step keeps the invariant: the buffers stay canonical and within capacity, each output buffer holds exactly the
elements below its length, STATUS, PROF and the error record stay legal, samples and decoded characters stay in range
(10_state.md R17, R23, R27, R28, R31, R32; 60_exceptions.md R113, R114). What it says of the working state between
commands and of the parameters is the model's choice (log 1, log 6, log 7). -/
def Obligations.EveryStepKeepsTheInvariant : Prop :=
  ∀ s t : State, Inv s → step s = .next t → Inv t
end

