-- ==== Sys2Proof/Laws/State.lean ====
section
/-! SUPPORT. What each update of State leaves in each field: one lemma per update and field, all true by rfl. -/

namespace Sys2Proof.Machine.State

variable (s : State)

@[simp] theorem complete_cmd (c : Completion) : (s.complete c).cmd = s.cmd := rfl
@[simp] theorem complete_status (c : Completion) : (s.complete c).status = completedStatus c := rfl
@[simp] theorem complete_errIndex (c : Completion) : (s.complete c).errIndex = BitVec.ofNat 32 c.index := rfl
@[simp] theorem complete_errChar (c : Completion) : (s.complete c).errChar = c.char := rfl
@[simp] theorem complete_pad (c : Completion) : (s.complete c).pad = s.pad := rfl
@[simp] theorem complete_spb (c : Completion) : (s.complete c).spb = s.spb := rfl
@[simp] theorem complete_prof (c : Completion) : (s.complete c).prof = s.prof := rfl
@[simp] theorem complete_txtALen (c : Completion) : (s.complete c).txtALen = s.txtALen := rfl
@[simp] theorem complete_txtBLen (c : Completion) : (s.complete c).txtBLen = s.txtBLen := rfl
@[simp] theorem complete_bitsInLen (c : Completion) : (s.complete c).bitsInLen = s.bitsInLen := rfl
@[simp] theorem complete_bitsOutLen (c : Completion) : (s.complete c).bitsOutLen = s.bitsOutLen := rfl
@[simp] theorem complete_txtOutLen (c : Completion) : (s.complete c).txtOutLen = s.txtOutLen := rfl
@[simp] theorem complete_samplesLen (c : Completion) : (s.complete c).samplesLen = s.samplesLen := rfl
@[simp] theorem complete_mem (c : Completion) : (s.complete c).mem = s.mem := rfl
@[simp] theorem complete_work (c : Completion) : (s.complete c).work = s.work := rfl
@[simp] theorem complete_params (c : Completion) : (s.complete c).params = s.params := rfl
@[simp] theorem complete_inputs (c : Completion) : (s.complete c).inputs = s.inputs := rfl
@[simp] theorem complete_seen (c : Completion) : (s.complete c).seen = s.seen := rfl

@[simp] theorem storeBitsOut_cmd (b : List Bit) : (s.storeBitsOut b).cmd = s.cmd := rfl
@[simp] theorem storeBitsOut_status (b : List Bit) : (s.storeBitsOut b).status = s.status := rfl
@[simp] theorem storeBitsOut_errIndex (b : List Bit) : (s.storeBitsOut b).errIndex = s.errIndex := rfl
@[simp] theorem storeBitsOut_errChar (b : List Bit) : (s.storeBitsOut b).errChar = s.errChar := rfl
@[simp] theorem storeBitsOut_pad (b : List Bit) : (s.storeBitsOut b).pad = s.pad := rfl
@[simp] theorem storeBitsOut_spb (b : List Bit) : (s.storeBitsOut b).spb = s.spb := rfl
@[simp] theorem storeBitsOut_prof (b : List Bit) : (s.storeBitsOut b).prof = s.prof := rfl
@[simp] theorem storeBitsOut_txtALen (b : List Bit) : (s.storeBitsOut b).txtALen = s.txtALen := rfl
@[simp] theorem storeBitsOut_txtBLen (b : List Bit) : (s.storeBitsOut b).txtBLen = s.txtBLen := rfl
@[simp] theorem storeBitsOut_bitsInLen (b : List Bit) : (s.storeBitsOut b).bitsInLen = s.bitsInLen := rfl
@[simp] theorem storeBitsOut_bitsOutLen (b : List Bit) : (s.storeBitsOut b).bitsOutLen = BitVec.ofNat 32 b.length := rfl
@[simp] theorem storeBitsOut_txtOutLen (b : List Bit) : (s.storeBitsOut b).txtOutLen = s.txtOutLen := rfl
@[simp] theorem storeBitsOut_samplesLen (b : List Bit) : (s.storeBitsOut b).samplesLen = s.samplesLen := rfl
@[simp] theorem storeBitsOut_mem (b : List Bit) : (s.storeBitsOut b).mem = { s.mem with bitsOut := bufOfList b } := rfl
@[simp] theorem storeBitsOut_work (b : List Bit) : (s.storeBitsOut b).work = s.work := rfl
@[simp] theorem storeBitsOut_params (b : List Bit) : (s.storeBitsOut b).params = s.params := rfl
@[simp] theorem storeBitsOut_inputs (b : List Bit) : (s.storeBitsOut b).inputs = s.inputs := rfl
@[simp] theorem storeBitsOut_seen (b : List Bit) : (s.storeBitsOut b).seen = s.seen := rfl

@[simp] theorem storeTxtOut_cmd (x : List Byte) : (s.storeTxtOut x).cmd = s.cmd := rfl
@[simp] theorem storeTxtOut_status (x : List Byte) : (s.storeTxtOut x).status = s.status := rfl
@[simp] theorem storeTxtOut_errIndex (x : List Byte) : (s.storeTxtOut x).errIndex = s.errIndex := rfl
@[simp] theorem storeTxtOut_errChar (x : List Byte) : (s.storeTxtOut x).errChar = s.errChar := rfl
@[simp] theorem storeTxtOut_pad (x : List Byte) : (s.storeTxtOut x).pad = s.pad := rfl
@[simp] theorem storeTxtOut_spb (x : List Byte) : (s.storeTxtOut x).spb = s.spb := rfl
@[simp] theorem storeTxtOut_prof (x : List Byte) : (s.storeTxtOut x).prof = s.prof := rfl
@[simp] theorem storeTxtOut_txtALen (x : List Byte) : (s.storeTxtOut x).txtALen = s.txtALen := rfl
@[simp] theorem storeTxtOut_txtBLen (x : List Byte) : (s.storeTxtOut x).txtBLen = s.txtBLen := rfl
@[simp] theorem storeTxtOut_bitsInLen (x : List Byte) : (s.storeTxtOut x).bitsInLen = s.bitsInLen := rfl
@[simp] theorem storeTxtOut_bitsOutLen (x : List Byte) : (s.storeTxtOut x).bitsOutLen = s.bitsOutLen := rfl
@[simp] theorem storeTxtOut_txtOutLen (x : List Byte) : (s.storeTxtOut x).txtOutLen = BitVec.ofNat 32 x.length := rfl
@[simp] theorem storeTxtOut_samplesLen (x : List Byte) : (s.storeTxtOut x).samplesLen = s.samplesLen := rfl
@[simp] theorem storeTxtOut_mem (x : List Byte) : (s.storeTxtOut x).mem = { s.mem with txtOut := bufOfList x } := rfl
@[simp] theorem storeTxtOut_work (x : List Byte) : (s.storeTxtOut x).work = s.work := rfl
@[simp] theorem storeTxtOut_params (x : List Byte) : (s.storeTxtOut x).params = s.params := rfl
@[simp] theorem storeTxtOut_inputs (x : List Byte) : (s.storeTxtOut x).inputs = s.inputs := rfl
@[simp] theorem storeTxtOut_seen (x : List Byte) : (s.storeTxtOut x).seen = s.seen := rfl

@[simp] theorem storeSamples_cmd (x : List Sample) : (s.storeSamples x).cmd = s.cmd := rfl
@[simp] theorem storeSamples_status (x : List Sample) : (s.storeSamples x).status = s.status := rfl
@[simp] theorem storeSamples_errIndex (x : List Sample) : (s.storeSamples x).errIndex = s.errIndex := rfl
@[simp] theorem storeSamples_errChar (x : List Sample) : (s.storeSamples x).errChar = s.errChar := rfl
@[simp] theorem storeSamples_pad (x : List Sample) : (s.storeSamples x).pad = s.pad := rfl
@[simp] theorem storeSamples_spb (x : List Sample) : (s.storeSamples x).spb = s.spb := rfl
@[simp] theorem storeSamples_prof (x : List Sample) : (s.storeSamples x).prof = s.prof := rfl
@[simp] theorem storeSamples_txtALen (x : List Sample) : (s.storeSamples x).txtALen = s.txtALen := rfl
@[simp] theorem storeSamples_txtBLen (x : List Sample) : (s.storeSamples x).txtBLen = s.txtBLen := rfl
@[simp] theorem storeSamples_bitsInLen (x : List Sample) : (s.storeSamples x).bitsInLen = s.bitsInLen := rfl
@[simp] theorem storeSamples_bitsOutLen (x : List Sample) : (s.storeSamples x).bitsOutLen = s.bitsOutLen := rfl
@[simp] theorem storeSamples_txtOutLen (x : List Sample) : (s.storeSamples x).txtOutLen = s.txtOutLen := rfl
@[simp] theorem storeSamples_samplesLen (x : List Sample) : (s.storeSamples x).samplesLen = BitVec.ofNat 32 x.length := rfl
@[simp] theorem storeSamples_mem (x : List Sample) : (s.storeSamples x).mem = { s.mem with samples := bufOfList x } := rfl
@[simp] theorem storeSamples_work (x : List Sample) : (s.storeSamples x).work = s.work := rfl
@[simp] theorem storeSamples_params (x : List Sample) : (s.storeSamples x).params = s.params := rfl
@[simp] theorem storeSamples_inputs (x : List Sample) : (s.storeSamples x).inputs = s.inputs := rfl
@[simp] theorem storeSamples_seen (x : List Sample) : (s.storeSamples x).seen = s.seen := rfl

@[simp] theorem setProf_cmd (p : Profile) : (s.setProf p).cmd = s.cmd := rfl
@[simp] theorem setProf_status (p : Profile) : (s.setProf p).status = s.status := rfl
@[simp] theorem setProf_errIndex (p : Profile) : (s.setProf p).errIndex = s.errIndex := rfl
@[simp] theorem setProf_errChar (p : Profile) : (s.setProf p).errChar = s.errChar := rfl
@[simp] theorem setProf_pad (p : Profile) : (s.setProf p).pad = s.pad := rfl
@[simp] theorem setProf_spb (p : Profile) : (s.setProf p).spb = s.spb := rfl
@[simp] theorem setProf_prof (p : Profile) : (s.setProf p).prof = packProf p := rfl
@[simp] theorem setProf_txtALen (p : Profile) : (s.setProf p).txtALen = s.txtALen := rfl
@[simp] theorem setProf_txtBLen (p : Profile) : (s.setProf p).txtBLen = s.txtBLen := rfl
@[simp] theorem setProf_bitsInLen (p : Profile) : (s.setProf p).bitsInLen = s.bitsInLen := rfl
@[simp] theorem setProf_bitsOutLen (p : Profile) : (s.setProf p).bitsOutLen = s.bitsOutLen := rfl
@[simp] theorem setProf_txtOutLen (p : Profile) : (s.setProf p).txtOutLen = s.txtOutLen := rfl
@[simp] theorem setProf_samplesLen (p : Profile) : (s.setProf p).samplesLen = s.samplesLen := rfl
@[simp] theorem setProf_mem (p : Profile) : (s.setProf p).mem = s.mem := rfl
@[simp] theorem setProf_work (p : Profile) : (s.setProf p).work = s.work := rfl
@[simp] theorem setProf_params (p : Profile) : (s.setProf p).params = s.params := rfl
@[simp] theorem setProf_inputs (p : Profile) : (s.setProf p).inputs = s.inputs := rfl
@[simp] theorem setProf_seen (p : Profile) : (s.setProf p).seen = s.seen := rfl

@[simp] theorem issue_cmd (w : BitVec 16) : (s.issue w).cmd = w := rfl
@[simp] theorem issue_status (w : BitVec 16) : (s.issue w).status = withBusy s.status := rfl
@[simp] theorem issue_errIndex (w : BitVec 16) : (s.issue w).errIndex = s.errIndex := rfl
@[simp] theorem issue_errChar (w : BitVec 16) : (s.issue w).errChar = s.errChar := rfl
@[simp] theorem issue_pad (w : BitVec 16) : (s.issue w).pad = s.pad := rfl
@[simp] theorem issue_spb (w : BitVec 16) : (s.issue w).spb = s.spb := rfl
@[simp] theorem issue_prof (w : BitVec 16) : (s.issue w).prof = s.prof := rfl
@[simp] theorem issue_txtALen (w : BitVec 16) : (s.issue w).txtALen = s.txtALen := rfl
@[simp] theorem issue_txtBLen (w : BitVec 16) : (s.issue w).txtBLen = s.txtBLen := rfl
@[simp] theorem issue_bitsInLen (w : BitVec 16) : (s.issue w).bitsInLen = s.bitsInLen := rfl
@[simp] theorem issue_bitsOutLen (w : BitVec 16) : (s.issue w).bitsOutLen = s.bitsOutLen := rfl
@[simp] theorem issue_txtOutLen (w : BitVec 16) : (s.issue w).txtOutLen = s.txtOutLen := rfl
@[simp] theorem issue_samplesLen (w : BitVec 16) : (s.issue w).samplesLen = s.samplesLen := rfl
@[simp] theorem issue_mem (w : BitVec 16) : (s.issue w).mem = s.mem := rfl
@[simp] theorem issue_work (w : BitVec 16) : (s.issue w).work = s.work := rfl
@[simp] theorem issue_params (w : BitVec 16) : (s.issue w).params = s.params := rfl
@[simp] theorem issue_inputs (w : BitVec 16) : (s.issue w).inputs = s.inputs := rfl
@[simp] theorem issue_seen (w : BitVec 16) : (s.issue w).seen = s.seen := rfl

@[simp] theorem observe_cmd (r : Reading) : (s.observe r).cmd = s.cmd := rfl
@[simp] theorem observe_status (r : Reading) : (s.observe r).status = s.status := rfl
@[simp] theorem observe_errIndex (r : Reading) : (s.observe r).errIndex = s.errIndex := rfl
@[simp] theorem observe_errChar (r : Reading) : (s.observe r).errChar = s.errChar := rfl
@[simp] theorem observe_pad (r : Reading) : (s.observe r).pad = s.pad := rfl
@[simp] theorem observe_spb (r : Reading) : (s.observe r).spb = s.spb := rfl
@[simp] theorem observe_prof (r : Reading) : (s.observe r).prof = s.prof := rfl
@[simp] theorem observe_txtALen (r : Reading) : (s.observe r).txtALen = s.txtALen := rfl
@[simp] theorem observe_txtBLen (r : Reading) : (s.observe r).txtBLen = s.txtBLen := rfl
@[simp] theorem observe_bitsInLen (r : Reading) : (s.observe r).bitsInLen = s.bitsInLen := rfl
@[simp] theorem observe_bitsOutLen (r : Reading) : (s.observe r).bitsOutLen = s.bitsOutLen := rfl
@[simp] theorem observe_txtOutLen (r : Reading) : (s.observe r).txtOutLen = s.txtOutLen := rfl
@[simp] theorem observe_samplesLen (r : Reading) : (s.observe r).samplesLen = s.samplesLen := rfl
@[simp] theorem observe_mem (r : Reading) : (s.observe r).mem = s.mem := rfl
@[simp] theorem observe_work (r : Reading) : (s.observe r).work = s.work := rfl
@[simp] theorem observe_params (r : Reading) : (s.observe r).params = s.params := rfl
@[simp] theorem observe_inputs (r : Reading) : (s.observe r).inputs = s.inputs := rfl
@[simp] theorem observe_seen (r : Reading) : (s.observe r).seen = s.seen ++ [r] := rfl

@[simp] theorem setSeq_cmd (q : Seq) : (s.setSeq q).cmd = s.cmd := rfl
@[simp] theorem setSeq_status (q : Seq) : (s.setSeq q).status = s.status := rfl
@[simp] theorem setSeq_errIndex (q : Seq) : (s.setSeq q).errIndex = s.errIndex := rfl
@[simp] theorem setSeq_errChar (q : Seq) : (s.setSeq q).errChar = s.errChar := rfl
@[simp] theorem setSeq_pad (q : Seq) : (s.setSeq q).pad = s.pad := rfl
@[simp] theorem setSeq_spb (q : Seq) : (s.setSeq q).spb = s.spb := rfl
@[simp] theorem setSeq_prof (q : Seq) : (s.setSeq q).prof = s.prof := rfl
@[simp] theorem setSeq_txtALen (q : Seq) : (s.setSeq q).txtALen = s.txtALen := rfl
@[simp] theorem setSeq_txtBLen (q : Seq) : (s.setSeq q).txtBLen = s.txtBLen := rfl
@[simp] theorem setSeq_bitsInLen (q : Seq) : (s.setSeq q).bitsInLen = s.bitsInLen := rfl
@[simp] theorem setSeq_bitsOutLen (q : Seq) : (s.setSeq q).bitsOutLen = s.bitsOutLen := rfl
@[simp] theorem setSeq_txtOutLen (q : Seq) : (s.setSeq q).txtOutLen = s.txtOutLen := rfl
@[simp] theorem setSeq_samplesLen (q : Seq) : (s.setSeq q).samplesLen = s.samplesLen := rfl
@[simp] theorem setSeq_mem (q : Seq) : (s.setSeq q).mem = s.mem := rfl
@[simp] theorem setSeq_work (q : Seq) : (s.setSeq q).work = { s.work with seq := q } := rfl
@[simp] theorem setSeq_params (q : Seq) : (s.setSeq q).params = s.params := rfl
@[simp] theorem setSeq_inputs (q : Seq) : (s.setSeq q).inputs = s.inputs := rfl
@[simp] theorem setSeq_seen (q : Seq) : (s.setSeq q).seen = s.seen := rfl

@[simp] theorem beginSynth_cmd : (s.beginSynth).cmd = s.cmd := rfl
@[simp] theorem beginSynth_status : (s.beginSynth).status = s.status := rfl
@[simp] theorem beginSynth_errIndex : (s.beginSynth).errIndex = s.errIndex := rfl
@[simp] theorem beginSynth_errChar : (s.beginSynth).errChar = s.errChar := rfl
@[simp] theorem beginSynth_pad : (s.beginSynth).pad = s.pad := rfl
@[simp] theorem beginSynth_spb : (s.beginSynth).spb = s.spb := rfl
@[simp] theorem beginSynth_prof : (s.beginSynth).prof = s.prof := rfl
@[simp] theorem beginSynth_txtALen : (s.beginSynth).txtALen = s.txtALen := rfl
@[simp] theorem beginSynth_txtBLen : (s.beginSynth).txtBLen = s.txtBLen := rfl
@[simp] theorem beginSynth_bitsInLen : (s.beginSynth).bitsInLen = s.bitsInLen := rfl
@[simp] theorem beginSynth_bitsOutLen : (s.beginSynth).bitsOutLen = s.bitsOutLen := rfl
@[simp] theorem beginSynth_txtOutLen : (s.beginSynth).txtOutLen = s.txtOutLen := rfl
@[simp] theorem beginSynth_samplesLen : (s.beginSynth).samplesLen = s.samplesLen := rfl
@[simp] theorem beginSynth_mem : (s.beginSynth).mem = s.mem := rfl
@[simp] theorem beginSynth_work : (s.beginSynth).work = { s.work with amp := peak, seq := .emitPrimary } := rfl
@[simp] theorem beginSynth_params : (s.beginSynth).params = s.params := rfl
@[simp] theorem beginSynth_inputs : (s.beginSynth).inputs = s.inputs := rfl
@[simp] theorem beginSynth_seen : (s.beginSynth).seen = s.seen := rfl

@[simp] theorem runPass_cmd (b : List Bit) : (s.runPass b).1.cmd = s.cmd := rfl
@[simp] theorem runPass_status (b : List Bit) : (s.runPass b).1.status = s.status := rfl
@[simp] theorem runPass_errIndex (b : List Bit) : (s.runPass b).1.errIndex = s.errIndex := rfl
@[simp] theorem runPass_errChar (b : List Bit) : (s.runPass b).1.errChar = s.errChar := rfl
@[simp] theorem runPass_pad (b : List Bit) : (s.runPass b).1.pad = s.pad := rfl
@[simp] theorem runPass_spb (b : List Bit) : (s.runPass b).1.spb = s.spb := rfl
@[simp] theorem runPass_prof (b : List Bit) : (s.runPass b).1.prof = s.prof := rfl
@[simp] theorem runPass_txtALen (b : List Bit) : (s.runPass b).1.txtALen = s.txtALen := rfl
@[simp] theorem runPass_txtBLen (b : List Bit) : (s.runPass b).1.txtBLen = s.txtBLen := rfl
@[simp] theorem runPass_bitsInLen (b : List Bit) : (s.runPass b).1.bitsInLen = s.bitsInLen := rfl
@[simp] theorem runPass_bitsOutLen (b : List Bit) : (s.runPass b).1.bitsOutLen = s.bitsOutLen := rfl
@[simp] theorem runPass_txtOutLen (b : List Bit) : (s.runPass b).1.txtOutLen = s.txtOutLen := rfl
@[simp] theorem runPass_samplesLen (b : List Bit) : (s.runPass b).1.samplesLen = s.samplesLen := rfl
@[simp] theorem runPass_mem (b : List Bit) : (s.runPass b).1.mem = s.mem := rfl
@[simp] theorem runPass_work (b : List Bit) : (s.runPass b).1.work =
    { s.work with amp := (emitPass s.spb.toNat s.work.amp b).2, passBits := b, bitIdx := b.length } := rfl
@[simp] theorem runPass_params (b : List Bit) : (s.runPass b).1.params = s.params := rfl
@[simp] theorem runPass_inputs (b : List Bit) : (s.runPass b).1.inputs = s.inputs := rfl
@[simp] theorem runPass_seen (b : List Bit) : (s.runPass b).1.seen = s.seen := rfl
@[simp] theorem runPass_samples (b : List Bit) : (s.runPass b).2 = (emitPass s.spb.toNat s.work.amp b).1 := rfl

@[simp] theorem succeed_eq : s.succeed = s.complete .success := rfl
@[simp] theorem completeIllegal_eq : s.completeIllegal = s.complete .illegal := rfl
@[simp] theorem raise_bitsOut (c : Completion) : s.raise .bitsOut c = (s.storeBitsOut []).complete c := rfl
@[simp] theorem raise_txtOut (c : Completion) : s.raise .txtOut c = (s.storeTxtOut []).complete c := rfl
@[simp] theorem raise_samples (c : Completion) : s.raise .samples c = (s.storeSamples []).complete c := rfl
@[simp] theorem raiseKeep_eq (x : List Sample) (c : Completion) :
    s.raiseKeep x c = (s.storeSamples x).complete c := rfl
@[simp] theorem synthRaise_eq (b : Bool) :
    s.synthRaise b = ((s.setSeq .done).storeSamples []).complete (.capacity b) := rfl

@[simp] theorem assertReset_cmd : s.assertReset.cmd = (resetWith s.params).cmd := rfl
@[simp] theorem assertReset_status : s.assertReset.status = (resetWith s.params).status := rfl
@[simp] theorem assertReset_errIndex : s.assertReset.errIndex = (resetWith s.params).errIndex := rfl
@[simp] theorem assertReset_errChar : s.assertReset.errChar = (resetWith s.params).errChar := rfl
@[simp] theorem assertReset_pad : s.assertReset.pad = (resetWith s.params).pad := rfl
@[simp] theorem assertReset_spb : s.assertReset.spb = (resetWith s.params).spb := rfl
@[simp] theorem assertReset_prof : s.assertReset.prof = (resetWith s.params).prof := rfl
@[simp] theorem assertReset_txtALen : s.assertReset.txtALen = (resetWith s.params).txtALen := rfl
@[simp] theorem assertReset_txtBLen : s.assertReset.txtBLen = (resetWith s.params).txtBLen := rfl
@[simp] theorem assertReset_bitsInLen : s.assertReset.bitsInLen = (resetWith s.params).bitsInLen := rfl
@[simp] theorem assertReset_bitsOutLen : s.assertReset.bitsOutLen = (resetWith s.params).bitsOutLen := rfl
@[simp] theorem assertReset_txtOutLen : s.assertReset.txtOutLen = (resetWith s.params).txtOutLen := rfl
@[simp] theorem assertReset_samplesLen : s.assertReset.samplesLen = (resetWith s.params).samplesLen := rfl
@[simp] theorem assertReset_mem : s.assertReset.mem = (resetWith s.params).mem := rfl
@[simp] theorem assertReset_work : s.assertReset.work = (resetWith s.params).work := rfl
@[simp] theorem assertReset_params : s.assertReset.params = s.params := rfl
@[simp] theorem assertReset_inputs : s.assertReset.inputs = s.inputs := rfl
@[simp] theorem assertReset_seen : s.assertReset.seen = s.seen := rfl

end Sys2Proof.Machine.State
end

