-- ==== Sys2Proof/Laws/Buffers.lean ====
section
/-! SUPPORT. What the shared operations do, said once: buffers read back what was written, keep their canonical form,
and hold exactly the sequence a command stores. -/

namespace Sys2Proof.Machine

variable {α : Type}

@[simp] theorem bufRead_nil (k : Nat) : bufRead ([] : List (Nat × α)) k = none := rfl

theorem bufRead_cons (i : Nat) (v : α) (rest : List (Nat × α)) (k : Nat) :
    bufRead ((i, v) :: rest) k = if i = k then some v else bufRead rest k := rfl

/-- A canonical buffer from `lo` on holds no value below `lo`. -/
theorem bufRead_below {lo cap k : Nat} {b : List (Nat × α)} (h : bufWfFrom lo cap b = true) (hk : k < lo) :
    bufRead b k = none := by
  induction b generalizing lo with
  | nil => rfl
  | cons e rest ih =>
    obtain ⟨i, v⟩ := e
    simp only [bufWfFrom, Bool.and_eq_true, decide_eq_true_eq] at h
    rw [bufRead_cons, if_neg (by omega)]
    exact ih h.2 (by omega)

/-- A canonical buffer holds no value at or above its capacity. -/
theorem bufRead_above {lo cap k : Nat} {b : List (Nat × α)} (h : bufWfFrom lo cap b = true) (hk : cap ≤ k) :
    bufRead b k = none := by
  induction b generalizing lo with
  | nil => rfl
  | cons e rest ih =>
    obtain ⟨i, v⟩ := e
    simp only [bufWfFrom, Bool.and_eq_true, decide_eq_true_eq] at h
    rw [bufRead_cons, if_neg (by omega)]
    exact ih h.2

/-- Reading the element just written gives the value written. -/
@[simp] theorem bufRead_bufWrite_same (b : List (Nat × α)) (k : Nat) (v : α) :
    bufRead (bufWrite b k v) k = some v := by
  induction b with
  | nil => simp [bufWrite, bufRead]
  | cons e rest ih =>
    obtain ⟨i, w⟩ := e
    simp only [bufWrite]
    split
    · simp [bufRead]
    · split
      · simp [bufRead]
      · rename_i h
        rw [bufRead_cons, if_neg (fun h' => h h'.symm), ih]

/-- A write leaves every other element alone. -/
theorem bufRead_bufWrite_other (b : List (Nat × α)) {k j : Nat} (v : α) (h : j ≠ k) :
    bufRead (bufWrite b k v) j = bufRead b j := by
  induction b with
  | nil => simp [bufWrite, bufRead, Ne.symm h]
  | cons e rest ih =>
    obtain ⟨i, w⟩ := e
    simp only [bufWrite]
    split
    · rw [bufRead_cons, if_neg (Ne.symm h)]
    · split
      · rename_i hk
        rw [bufRead_cons, bufRead_cons, if_neg (Ne.symm h), if_neg (by omega)]
      · rw [bufRead_cons, bufRead_cons, ih]

theorem bufWrite_wfFrom {lo cap k : Nat} (b : List (Nat × α)) (v : α) (h : bufWfFrom lo cap b = true) (hlo : lo ≤ k)
    (hcap : k < cap) : bufWfFrom lo cap (bufWrite b k v) = true := by
  induction b generalizing lo with
  | nil => simp [bufWrite, bufWfFrom, hlo, hcap]
  | cons e rest ih =>
    obtain ⟨i, w⟩ := e
    simp only [bufWfFrom, Bool.and_eq_true, decide_eq_true_eq] at h
    simp only [bufWrite]
    split
    · simp only [bufWfFrom, Bool.and_eq_true, decide_eq_true_eq]
      exact ⟨⟨hlo, hcap⟩, ⟨by omega, h.1.2⟩, h.2⟩
    · split
      · rename_i hk
        subst hk
        simp only [bufWfFrom, Bool.and_eq_true, decide_eq_true_eq]
        exact ⟨⟨hlo, hcap⟩, h.2⟩
      · simp only [bufWfFrom, Bool.and_eq_true, decide_eq_true_eq]
        exact ⟨h.1, ih h.2 (by omega)⟩

/-- A write below capacity keeps the canonical form. -/
theorem bufWrite_wf {cap k : Nat} (b : List (Nat × α)) (v : α) (h : bufWf cap b = true) (hk : k < cap) :
    bufWf cap (bufWrite b k v) = true :=
  bufWrite_wfFrom b v h (Nat.zero_le k) hk

theorem bufRead_bufOfListFrom (vs : List α) (i k : Nat) :
    bufRead (bufOfListFrom i vs) k = if k < i then none else vs[k - i]? := by
  induction vs generalizing i with
  | nil => simp [bufOfListFrom]
  | cons v vs ih =>
    rw [bufOfListFrom, bufRead_cons, ih]
    rcases Nat.lt_trichotomy i k with h | h | h
    · obtain ⟨d, rfl⟩ : ∃ d, k = i + 1 + d := ⟨k - (i + 1), by omega⟩
      have e : i + 1 + d - i = d + 1 := by omega
      simp [e, show ¬i + 1 + d < i + 1 by omega, show ¬i + 1 + d < i by omega, show i ≠ i + 1 + d by omega]
    · subst h
      simp
    · simp [show i ≠ k by omega, show k < i + 1 by omega, h]

/-- The buffer a command stores holds exactly the sequence. -/
theorem bufOfList_holdsExactly (vs : List α) : HoldsExactly (bufOfList vs) vs := by
  intro k
  simp [bufOfList, bufRead_bufOfListFrom]

theorem bufOfListFrom_wf (vs : List α) {i cap : Nat} (h : i + vs.length ≤ cap) :
    bufWfFrom i cap (bufOfListFrom i vs) = true := by
  induction vs generalizing i with
  | nil => rfl
  | cons v vs ih =>
    simp only [List.length_cons] at h
    simp only [bufOfListFrom, bufWfFrom, Bool.and_eq_true, decide_eq_true_eq]
    exact ⟨⟨Nat.le_refl i, by omega⟩, ih (by omega)⟩

/-- A sequence that fits the capacity is stored in canonical form. -/
theorem bufOfList_wf (vs : List α) {cap : Nat} (h : vs.length ≤ cap) : bufWf cap (bufOfList vs) = true :=
  bufOfListFrom_wf vs (by omega)

/-- What a range of elements is when every one of them holds a value. -/
theorem bufReadRange_eq_some {b : List (Nat × α)} {i n : Nat} {vs : List α} :
    bufReadRange b i n = some vs ↔ vs.length = n ∧ ∀ k < n, bufRead b (i + k) = vs[k]? := by
  induction n generalizing i vs with
  | zero =>
    simp only [bufReadRange, Option.some.injEq, Nat.not_lt_zero, false_imp_iff, implies_true, and_true]
    exact ⟨fun h => by simp [← h], fun h => (List.length_eq_zero_iff.mp h).symm⟩
  | succ n ih =>
    rw [bufReadRange]
    cases hb : bufRead b i with
    | none =>
      simp only [reduceCtorEq, false_iff, not_and]
      intro hl hk
      have h0 := hk 0 (by omega)
      rw [Nat.add_zero, hb] at h0
      have : 0 < vs.length := by omega
      simp [List.getElem?_eq_getElem this] at h0
    | some v =>
      simp only [Option.map_eq_some_iff]
      constructor
      · rintro ⟨ws, hws, rfl⟩
        obtain ⟨hl, hk⟩ := ih.mp hws
        refine ⟨by simp [hl], ?_⟩
        intro k hkn
        cases k with
        | zero => simpa using hb
        | succ k =>
          have := hk k (by omega)
          rw [show i + 1 + k = i + (k + 1) by omega] at this
          simpa using this
      · rintro ⟨hl, hk⟩
        cases vs with
        | nil => simp at hl
        | cons w ws =>
          have h0 := hk 0 (by omega)
          simp only [Nat.add_zero, hb, List.getElem?_cons_zero, Option.some.injEq] at h0
          subst h0
          refine ⟨ws, ih.mpr ⟨by simpa using hl, ?_⟩, rfl⟩
          intro k hkn
          have := hk (k + 1) (by omega)
          rw [show i + 1 + k = i + (k + 1) by omega]
          simpa using this

/-- `B[0..n)` is a sequence exactly when it has `n` elements and they are the buffer's. -/
theorem bufPrefix_eq_some {b : List (Nat × α)} {n : Nat} {vs : List α} :
    bufPrefix b n = some vs ↔ vs.length = n ∧ ∀ k < n, bufRead b k = vs[k]? := by
  simp [bufPrefix, bufReadRange_eq_some]

/-- `B[0..n)` is not read exactly when some element below `n` holds no value (20_memory.md R46). -/
theorem bufPrefix_eq_none {b : List (Nat × α)} {n : Nat} : bufPrefix b n = none ↔ Unwritten b n := by
  have key : ∀ (n i : Nat), bufReadRange b i n = none ↔ ∃ k < n, bufRead b (i + k) = none := by
    intro n
    induction n with
    | zero => simp [bufReadRange]
    | succ n ih =>
      intro i
      rw [bufReadRange]
      cases hb : bufRead b i with
      | none => exact ⟨fun _ => ⟨0, by omega, by simpa using hb⟩, fun _ => rfl⟩
      | some v =>
        simp only [Option.map_eq_none_iff, ih]
        constructor
        · rintro ⟨k, hk, h⟩
          exact ⟨k + 1, by omega, by rw [← h]; congr 1; omega⟩
        · rintro ⟨k, hk, h⟩
          cases k with
          | zero => simp [hb] at h
          | succ k => exact ⟨k, by omega, by rw [← h]; congr 1; omega⟩
  simpa [bufPrefix, Unwritten] using key n 0

/-- A sequence a command stored is read back whole. -/
theorem bufPrefix_bufOfList (vs : List α) : bufPrefix (bufOfList vs) vs.length = some vs :=
  bufPrefix_eq_some.mpr ⟨rfl, fun k _ => bufOfList_holdsExactly vs k⟩

/-- Memory is canonical exactly when each buffer is. -/
theorem Memory.wf_iff (P : Config.Params) (m : Memory) :
    m.wf P = true ↔ bufWf P.textCap m.txtA = true ∧ bufWf P.textCap m.txtB = true ∧ bufWf P.bitsCap m.bitsIn = true ∧
      bufWf P.bitsCap m.bitsOut = true ∧ bufWf P.textCap m.txtOut = true ∧ bufWf P.samplesCap m.samples = true := by
  simp only [Memory.wf, Bool.and_eq_true, and_assoc]

/-- The reset memory is canonical. -/
theorem Memory.reset_wf (P : Config.Params) : Memory.reset.wf P = true := rfl

/-- Every host write below capacity keeps memory canonical. -/
theorem Memory.hostWrite_wf {P : Config.Params} {m : Memory} {b : BufId} {k : Nat} (v : Nat) (h : m.wf P = true)
    (hk : k < b.capacity P) : (m.hostWrite b k v).wf P = true := by
  rw [Memory.wf_iff] at h ⊢
  obtain ⟨h1, h2, h3, h4, h5, h6⟩ := h
  cases b with
  | txtA => exact ⟨bufWrite_wf _ _ h1 hk, h2, h3, h4, h5, h6⟩
  | txtB => exact ⟨h1, bufWrite_wf _ _ h2 hk, h3, h4, h5, h6⟩
  | bitsIn => exact ⟨h1, h2, bufWrite_wf _ _ h3 hk, h4, h5, h6⟩
  | bitsOut => exact ⟨h1, h2, h3, h4, h5, h6⟩
  | txtOut => exact ⟨h1, h2, h3, h4, h5, h6⟩
  | samples => exact ⟨h1, h2, h3, h4, h5, h6⟩

/-- Storing a bitstream that fits keeps memory canonical. -/
theorem storeBitsOut_wf {s : State} {bits : List Bit} (h : s.mem.wf s.params = true)
    (hl : bits.length ≤ s.params.bitsCap) : (s.storeBitsOut bits).mem.wf (s.storeBitsOut bits).params = true := by
  rw [Memory.wf_iff] at h ⊢
  exact ⟨h.1, h.2.1, h.2.2.1, bufOfList_wf bits hl, h.2.2.2.2.1, h.2.2.2.2.2⟩

/-- Storing a text that fits keeps memory canonical. -/
theorem storeTxtOut_wf {s : State} {text : List Byte} (h : s.mem.wf s.params = true)
    (hl : text.length ≤ s.params.textCap) : (s.storeTxtOut text).mem.wf (s.storeTxtOut text).params = true := by
  rw [Memory.wf_iff] at h ⊢
  exact ⟨h.1, h.2.1, h.2.2.1, h.2.2.2.1, bufOfList_wf text hl, h.2.2.2.2.2⟩

/-- Storing samples that fit keeps memory canonical. -/
theorem storeSamples_wf {s : State} {out : List Sample} (h : s.mem.wf s.params = true)
    (hl : out.length ≤ s.params.samplesCap) : (s.storeSamples out).mem.wf (s.storeSamples out).params = true := by
  rw [Memory.wf_iff] at h ⊢
  exact ⟨h.1, h.2.1, h.2.2.1, h.2.2.2.1, h.2.2.2.2.1, bufOfList_wf out hl⟩

end Sys2Proof.Machine
end

