-- ==== Sys2Proof/Laws/Status.lean ====
section
/-! SUPPORT. The fields of a STATUS word, of one a completion leaves and of one an issue leaves. -/

namespace Sys2Proof.Machine

@[simp] theorem statusCode_statusWord (busy src : Bool) (code : BitVec 4) :
    statusCode (statusWord busy src code) = code := by
  revert busy src code; decide

@[simp] theorem statusErrSrc_statusWord (busy src : Bool) (code : BitVec 4) :
    statusErrSrc (statusWord busy src code) = src := by
  revert busy src code; decide

@[simp] theorem statusReserved_statusWord (busy src : Bool) (code : BitVec 4) :
    statusReserved (statusWord busy src code) = 0#2 := by
  revert busy src code; decide

@[simp] theorem statusBusy_statusWord (busy src : Bool) (code : BitVec 4) :
    statusBusy (statusWord busy src code) = busy := by
  revert busy src code; decide

/-- The STATUS word a completion leaves depends on its code and ERR_SRC only. -/
theorem completedStatus_mk (code : Code) (index : Nat) (char : Byte) (src : Bool) :
    completedStatus { code := code, index := index, char := char, src := src } = statusWord false src code.toBits := rfl

@[simp] theorem statusCode_completedStatus (c : Completion) : statusCode (completedStatus c) = c.code.toBits :=
  statusCode_statusWord ..

@[simp] theorem statusErrSrc_completedStatus (c : Completion) : statusErrSrc (completedStatus c) = c.src :=
  statusErrSrc_statusWord ..

@[simp] theorem statusReserved_completedStatus (c : Completion) : statusReserved (completedStatus c) = 0#2 :=
  statusReserved_statusWord ..

@[simp] theorem statusBusy_completedStatus (c : Completion) : statusBusy (completedStatus c) = false :=
  statusBusy_statusWord ..

@[simp] theorem statusCode_withBusy (st : BitVec 8) : statusCode (withBusy st) = statusCode st := by
  revert st; decide +revert

@[simp] theorem statusErrSrc_withBusy (st : BitVec 8) : statusErrSrc (withBusy st) = statusErrSrc st := by
  revert st; decide +revert

@[simp] theorem statusReserved_withBusy (st : BitVec 8) : statusReserved (withBusy st) = statusReserved st := by
  revert st; decide +revert

@[simp] theorem statusBusy_withBusy (st : BitVec 8) : statusBusy (withBusy st) = true := by
  revert st; decide +revert

/-- A completion clears BUSY (70_reset_and_hazards.md R133). -/
@[simp] theorem busy_complete (s : State) (c : Completion) : (s.complete c).busy = false :=
  statusBusy_completedStatus c

end Sys2Proof.Machine
end

