-- ==== Sys2Proof/Laws/Commands.lean ====
section
/-! SUPPORT. What each meaning can do when it answers a next state, said once: which fields it writes, what it stores,
and how it completes. -/

namespace Sys2Proof.Machine

/-- A completion whose record fits its code, and whose code a command can end with (60_exceptions.md R114). -/
structure Completion.Fits (c : Completion) : Prop where
  notReset : c.code ≠ .noResult
  index : c.code = .ok ∨ c.code = .noStartSentinel ∨ c.code = .emptyInput ∨ c.code = .capacityExceeded ∨
    c.code = .illegalCommand → c.index = 0
  char : c.code ≠ .illegalCharacter → c.code ≠ .parityError → c.char = 0
  src : c.code ≠ .illegalCharacter → c.code ≠ .capacityExceeded → c.src = false

theorem Completion.fits_success : Completion.success.Fits := by
  constructor <;> simp [Completion.success]

theorem Completion.fits_illegal : Completion.illegal.Fits := by
  constructor <;> simp [Completion.illegal]

theorem Completion.fits_capacity (src : Bool) : (Completion.capacity src).Fits := by
  constructor <;> simp [Completion.capacity]

/-- The errors of `encodeText` fit their codes, and none of them is OK. -/
theorem encodeText_error_fits {text : List Byte} {pad : Nat} {c : Completion} (h : encodeText text pad = .error c) :
    c.Fits ∧ c.code ≠ .ok := by
  unfold encodeText at h
  split at h
  · cases h
    exact ⟨by constructor <;> simp, by simp⟩
  · simp only at h
    split at h <;> cases h
    exact ⟨by constructor <;> simp, by simp⟩

/-- An error of `encodeText` on a text with a first character is IllegalCharacter (43_synth.md R107). -/
theorem encodeText_error_code {text : List Byte} {pad : Nat} {c : Completion} (h : encodeText text pad = .error c)
    (ht : text ≠ []) : c.code = .illegalCharacter := by
  unfold encodeText at h
  split at h
  · rename_i hp
    cases text with
    | nil => exact absurd rfl ht
    | cons _ _ => simp [autoProfile] at hp
  · simp only at h
    split at h <;> cases h
    rfl

/-- The errors of `decodeBits` fit their codes, and none of them is OK. -/
theorem decodeBits_error_fits {b : List Bit} {c : Completion} (h : decodeBits b = .error c) :
    c.Fits ∧ c.code ≠ .ok := by
  unfold decodeBits at h
  repeat' first | split at h | simp only at h
  all_goals first
    | (cases h; exact ⟨by constructor <;> simp, by simp⟩)
    | cases h

/-- A text selects one of the two profiles, or none. -/
theorem autoProfile_cases (text : List Byte) :
    autoProfile text = none ∨ autoProfile text = some profile1 ∨ autoProfile text = some profile23 := by
  cases text with
  | nil => exact .inl rfl
  | cons c cs =>
    by_cases h : c = charPercent
    · exact .inr (.inl (by simp [autoProfile, h]))
    · exact .inr (.inr (by simp [autoProfile, h]))

/-- RESOLVE always answers a next state: IllegalCommand for SEL = 0, else one of the two profiles in PROF and OK. -/
theorem execResolve_cases (sel : BitVec 2) (s : State) :
    (trackOf sel = none ∧ execResolve sel s = .next s.completeIllegal) ∨
    ∃ t, trackOf sel = some t ∧ execResolve sel s = .next (s.setProf (profile t)).succeed := by
  unfold execResolve
  cases h : trackOf sel with
  | none => exact .inl ⟨rfl, rfl⟩
  | some t => exact .inr ⟨t, rfl, rfl⟩

/-- `encodeText` and `decodeBits` leave AMP and SEQ of the working state alone. -/
@[simp] theorem encodeWork_amp (text : List Byte) (w : Working) : (encodeWork text w).amp = w.amp := by
  unfold encodeWork; split <;> rfl

@[simp] theorem encodeWork_seq (text : List Byte) (w : Working) : (encodeWork text w).seq = w.seq := by
  unfold encodeWork; split <;> rfl

@[simp] theorem decodeWork_amp (b : List Bit) (w : Working) : (decodeWork b w).amp = w.amp := by
  unfold decodeWork; split <;> [rfl; (split <;> rfl)]

@[simp] theorem decodeWork_seq (b : List Bit) (w : Working) : (decodeWork b w).seq = w.seq := by
  unfold decodeWork; split <;> [rfl; (split <;> rfl)]

/-- What ENCODE can do: BITS_OUT receives a bitstream that fits, empty unless it ends with OK; PROF keeps its value or
receives a profile; the completion fits; AMP and SEQ keep their values. -/
theorem execEncode_next {s t : State} (h : execEncode s = .next t) :
    ∃ w prof bits c, t = (({ s with work := w, prof := prof } : State).storeBitsOut bits).complete c ∧
      bits.length ≤ s.params.bitsCap ∧ (c.code ≠ .ok → bits = []) ∧ c.Fits ∧
      (prof = s.prof ∨ prof = packProf profile1 ∨ prof = packProf profile23) ∧
      w.amp = s.work.amp ∧ w.seq = s.work.seq := by
  unfold execEncode at h
  split at h
  · cases h
    exact ⟨s.work, s.prof, [], .capacity false, rfl, Nat.zero_le _, fun _ => rfl,
      Completion.fits_capacity false, .inl rfl, rfl, rfl⟩
  · split at h
    · cases h
    · rename_i text _
      cases h
      have hp : ∃ prof, s.selectProfile text = { s with prof := prof } ∧
          (prof = s.prof ∨ prof = packProf profile1 ∨ prof = packProf profile23) := by
        unfold State.selectProfile
        rcases autoProfile_cases text with h | h | h <;> rw [h]
        · exact ⟨s.prof, rfl, .inl rfl⟩
        · exact ⟨_, rfl, .inr (.inl rfl)⟩
        · exact ⟨_, rfl, .inr (.inr rfl)⟩
      obtain ⟨prof, hs, hprof⟩ := hp
      unfold State.encodeTextA
      rw [hs]
      cases he : encodeText text s.pad.toNat with
      | error c =>
        obtain ⟨hf, hc⟩ := encodeText_error_fits he
        exact ⟨encodeWork text s.work, prof, [], c, rfl, Nat.zero_le _, fun _ => rfl, hf, hprof,
          encodeWork_amp .., encodeWork_seq ..⟩
      | ok r =>
        obtain ⟨bits, p⟩ := r
        simp only
        split
        · exact ⟨encodeWork text s.work, prof, [], .capacity false, rfl, Nat.zero_le _, fun _ => rfl,
            Completion.fits_capacity false, hprof, encodeWork_amp .., encodeWork_seq ..⟩
        · rename_i hb
          exact ⟨encodeWork text s.work, prof, bits, .success, rfl, Nat.le_of_not_lt hb,
            fun h => absurd rfl h, Completion.fits_success, hprof, encodeWork_amp .., encodeWork_seq ..⟩

/-- What DECODE can do: TXT_OUT receives a text that fits, empty unless it ends with OK, and then what `decodeBits`
answers; the completion fits; AMP and SEQ keep their values. -/
theorem execDecode_next {s t : State} (h : execDecode s = .next t) :
    ∃ w out c, t = (({ s with work := w } : State).storeTxtOut out).complete c ∧
      out.length ≤ s.params.textCap ∧ c.Fits ∧
      ((c.code ≠ .ok ∧ out = []) ∨ (c = .success ∧ ∃ b, s.inputBits = some b ∧ decodeBits b = .ok out)) ∧
      w.amp = s.work.amp ∧ w.seq = s.work.seq := by
  unfold execDecode at h
  split at h
  · cases h
    exact ⟨s.work, [], .capacity false, rfl, Nat.zero_le _, Completion.fits_capacity false,
      .inl ⟨by simp [Completion.capacity], rfl⟩, rfl, rfl⟩
  · split at h
    · cases h
    · rename_i b hb
      cases h
      unfold State.decodeInput
      cases hd : decodeBits b with
      | error c =>
        obtain ⟨hf, hc⟩ := decodeBits_error_fits hd
        exact ⟨decodeWork b s.work, [], c, rfl, Nat.zero_le _, hf, .inl ⟨hc, rfl⟩,
          decodeWork_amp .., decodeWork_seq ..⟩
      | ok out =>
        simp only
        split
        · exact ⟨decodeWork b s.work, [], .capacity false, rfl, Nat.zero_le _, Completion.fits_capacity false,
            .inl ⟨by simp [Completion.capacity], rfl⟩, decodeWork_amp .., decodeWork_seq ..⟩
        · rename_i hl
          exact ⟨decodeWork b s.work, out, .success, rfl, Nat.le_of_not_lt hl, Completion.fits_success,
            .inr ⟨rfl, b, hb, hd⟩, decodeWork_amp .., decodeWork_seq ..⟩

/-- Every sample of a bit's runs is the encoding of AMP or of its inverse, and AMP ends as one of the two. -/
theorem emitRuns_amp (amp : Int) (runs : List Nat) :
    (∀ v ∈ (emitRuns amp runs).1, v = sext16 amp ∨ v = sext16 (-amp)) ∧
    ((emitRuns amp runs).2 = amp ∨ (emitRuns amp runs).2 = -amp) := by
  induction runs generalizing amp with
  | nil => simp [emitRuns]
  | cons n runs ih =>
    obtain ⟨h1, h2⟩ := ih (-amp)
    rw [neg_neg] at h1 h2
    refine ⟨fun v hv => ?_, h2.symm⟩
    rcases List.mem_append.mp hv with h | h
    · exact .inr (List.eq_of_mem_replicate h)
    · exact (h1 v h).symm

/-- Every sample of a pass is the encoding of AMP or of its inverse, and AMP ends as one of the two (43_synth.md R99,
R100). -/
theorem emitPass_amp (spb : Nat) (amp : Int) (bits : List Bit) :
    (∀ v ∈ (emitPass spb amp bits).1, v = sext16 amp ∨ v = sext16 (-amp)) ∧
    ((emitPass spb amp bits).2 = amp ∨ (emitPass spb amp bits).2 = -amp) := by
  induction bits generalizing amp with
  | nil => simp [emitPass]
  | cons b bs ih =>
    have hb : (∀ v ∈ (emitBit spb amp b).1, v = sext16 amp ∨ v = sext16 (-amp)) ∧
        ((emitBit spb amp b).2 = amp ∨ (emitBit spb amp b).2 = -amp) := emitRuns_amp amp (bitRuns spb b)
    obtain ⟨h1, h2⟩ := ih (emitBit spb amp b).2
    simp only [emitPass]
    constructor
    · intro v hv
      rcases List.mem_append.mp hv with hv | hv
      · exact hb.1 v hv
      · rcases hb.2 with e | e <;> rcases h1 v hv with h | h <;> rw [e] at h <;> simp_all
    · rcases hb.2 with e | e <;> rcases h2 with h | h <;> rw [h, e] <;> simp

/-- AMP of the working state is +PEAK or -PEAK (10_state.md R32). -/
def PeakAmp (w : Working) : Prop := w.amp = 32767 ∨ w.amp = -32767

/-- A sequence of samples of +PEAK and -PEAK (43_synth.md R97). -/
def PeakSamples (out : List Sample) : Prop := ∀ v ∈ out, v = sext16 32767 ∨ v = sext16 (-32767)

/-- A pass from +PEAK or -PEAK keeps AMP and its samples there. -/
theorem emitPass_peak {spb : Nat} {amp : Int} (h : amp = 32767 ∨ amp = -32767) (bits : List Bit) :
    PeakSamples (emitPass spb amp bits).1 ∧ ((emitPass spb amp bits).2 = 32767 ∨ (emitPass spb amp bits).2 = -32767) := by
  obtain ⟨h1, h2⟩ := emitPass_amp spb amp bits
  rcases h with rfl | rfl
  · exact ⟨h1, h2⟩
  · simp only [neg_neg] at h1 h2
    exact ⟨fun v hv => (h1 v hv).symm, h2.symm⟩

/-- How SYNTH on a legal selector can end: with the samples of one or two passes or with none, SEQ Done and AMP at a
peak. -/
structure SynthEnds (s t : State) : Prop where
  ex : ∃ w out c, t = (({ s with work := w } : State).storeSamples out).complete c ∧
    out.length ≤ s.params.samplesCap ∧ PeakSamples out ∧ c.Fits ∧
    (c.code = .ok ∨ (c.code = .illegalCharacter ∧ c.src = true) ∨ out = []) ∧
    (w = s.work ∨ (w.seq = .done ∧ PeakAmp w))

theorem synthRaise_ends {s : State} {w : Working} (src : Bool) (hw : PeakAmp w) :
    SynthEnds s (State.synthRaise src { s with work := w }) :=
  ⟨{ w with seq := .done }, [], .capacity src, rfl, Nat.zero_le _, fun _ h => by simp at h, Completion.fits_capacity src,
    .inr (.inr rfl), .inr ⟨rfl, hw⟩⟩

theorem synthFinish_ends {s : State} {w : Working} {out : List Sample} (hw : PeakAmp w) (ho : PeakSamples out) :
    SynthEnds s (State.synthFinish out { s with work := w }) := by
  unfold State.synthFinish
  split
  · exact synthRaise_ends false hw
  · rename_i hl
    exact ⟨{ w with seq := .done }, out, .success, rfl, Nat.le_of_not_lt hl, ho, Completion.fits_success, .inl rfl,
      .inr ⟨rfl, hw⟩⟩

theorem peakSamples_append {xs ys : List Sample} (hx : PeakSamples xs) (hy : PeakSamples ys) :
    PeakSamples (xs ++ ys) := by
  intro v hv
  rcases List.mem_append.mp hv with h | h
  · exact hx v h
  · exact hy v h

/-- A pass of the machine changes only the working state, from a peak to a peak. -/
theorem runPass_peak (s : State) {w : Working} (hw : PeakAmp w) (bits : List Bit) :
    ∃ w', State.runPass bits { s with work := w } = ({ s with work := w' }, (emitPass s.spb.toNat w.amp bits).1) ∧
      PeakAmp w' ∧ PeakSamples (emitPass s.spb.toNat w.amp bits).1 :=
  ⟨_, rfl, (emitPass_peak hw bits).2, (emitPass_peak hw bits).1⟩

theorem synthSecondary_ends {s : State} {w : Working} {out : List Sample} {text : List Byte} (hw : PeakAmp w)
    (ho : PeakSamples out) (hl : out.length ≤ s.params.samplesCap) (ht : text ≠ []) :
    SynthEnds s (State.synthSecondary out text { s with work := w }) := by
  have hw1 : PeakAmp (encodeWork text w) := by simpa [PeakAmp] using hw
  unfold State.synthSecondary
  cases he : encodeText text 0 with
  | error c =>
    have hc := encodeText_error_code he ht
    refine ⟨{ encodeWork text w with seq := .done }, out, { c with src := true }, rfl, hl, ho, ?_,
      .inr (.inl ⟨hc, rfl⟩), .inr ⟨rfl, hw1⟩⟩
    constructor <;> simp [hc]
  | ok r =>
    obtain ⟨bits, p⟩ := r
    simp only
    split
    · exact synthRaise_ends true hw1
    · obtain ⟨w', hr, hw', hs⟩ := runPass_peak s hw1 (if s.params.reverseSecondary then bits.reverse else bits)
      rw [hr]
      exact synthFinish_ends hw' (peakSamples_append ho hs)

theorem secondaryTest_true {s : State} {t : Track} {text : List Byte} (h : s.secondaryTest t = some true)
    (ht : s.textB = some text) : text ≠ [] := by
  rintro rfl
  have hl := (bufPrefix_eq_some.mp ht).1
  unfold State.secondaryTest at h
  rw [if_pos (by simpa using hl.symm)] at h
  cases h

theorem synthMaybeSecondary_next {s t : State} {w : Working} {tr : Track} {rev : Bool} {out : List Sample}
    (hw : PeakAmp w) (ho : PeakSamples out) (hl : out.length ≤ s.params.samplesCap)
    (h : State.synthMaybeSecondary tr rev out { s with work := w } = .next t) : SynthEnds s t := by
  unfold State.synthMaybeSecondary at h
  split at h
  · cases h
  · split at h
    · cases h
    · cases h
      rename_i htest _ _ htext
      exact synthSecondary_ends hw ho hl (secondaryTest_true htest htext)
  · split at h
    · cases h
    · cases h
      exact synthFinish_ends hw ho
    · cases h
      obtain ⟨w', hr, hw', hs⟩ := runPass_peak s hw w.passBits.reverse
      unfold State.synthReverse
      simp only [hr]
      exact synthFinish_ends hw' (peakSamples_append ho hs)

/-- What SYNTH can do: IllegalCommand for SEL = 0, else an ending of `SynthEnds`. -/
theorem execSynth_next {s t : State} {sel : BitVec 2} {rev : Bool} (h : execSynth sel rev s = .next t) :
    (trackOf sel = none ∧ t = s.completeIllegal) ∨ ((∃ tr, trackOf sel = some tr) ∧ SynthEnds s t) := by
  unfold execSynth at h
  split at h
  · cases h
    exact .inl ⟨by assumption, rfl⟩
  · rename_i tr htr
    refine .inr ⟨⟨tr, htr⟩, ?_⟩
    split at h
    · cases h
      exact ⟨s.work, [], .capacity false, rfl, Nat.zero_le _, fun _ h => by simp at h, Completion.fits_capacity false,
        .inr (.inr rfl), .inl rfl⟩
    · split at h
      · cases h
      · rename_i bits _
        unfold State.synthPrimary at h
        obtain ⟨hs, ha⟩ := emitPass_peak (spb := s.spb.toNat) (amp := peak) (.inl rfl) bits
        simp only at h
        split at h
        · cases h
          exact synthRaise_ends false ha
        · rename_i hl
          exact synthMaybeSecondary_next (w := ((s.beginSynth.runPass bits).1.setSeq .maybeEmitSecondary).work) ha hs
            (Nat.le_of_not_lt hl) h

end Sys2Proof.Machine
end

