-- ==== Sys2Proof/Laws/Decoder.lean ====
section
/-! SUPPORT. What the decoder's search and its frame walk leave. -/

namespace Sys2Proof.Machine

/-- A nonempty pattern's prefix test, in terms of where the pattern stands. -/
theorem isPrefixOf_iff_standsAt {pat b : List Bit} : pat.isPrefixOf b = true ↔ StandsAt pat b 0 := by
  rw [List.isPrefixOf_iff_prefix, List.prefix_iff_eq_take]
  unfold StandsAt slice
  simp only [List.drop_zero, Nat.zero_add]
  constructor
  · intro h
    refine ⟨?_, h.symm⟩
    have := congrArg List.length h
    rw [List.length_take] at this
    omega
  · exact fun h => h.2.symm

theorem standsAt_succ {pat b : List Bit} {x : Bit} {p : Nat} :
    StandsAt pat (x :: b) (p + 1) ↔ StandsAt pat b p := by
  unfold StandsAt slice
  rw [List.length_cons, List.drop_succ_cons]
  constructor <;> rintro ⟨h1, h2⟩ <;> exact ⟨by omega, h2⟩

/-- The search finds the first place where a nonempty pattern stands, counted from `p`. -/
theorem findFrom_eq_some {pat b : List Bit} (hp : pat ≠ []) {p q : Nat} :
    findFrom pat b p = some q ↔ ∃ r, q = p + r ∧ FirstAt pat b r := by
  induction b generalizing p with
  | nil =>
    simp only [findFrom]
    constructor
    · exact fun h => nomatch h
    · rintro ⟨r, -, ⟨h, -⟩, -⟩
      rw [List.length_nil] at h
      exact absurd (List.eq_nil_of_length_eq_zero (by omega)) hp
  | cons x xs ih =>
    unfold findFrom
    split
    · rename_i h
      rw [isPrefixOf_iff_standsAt] at h
      constructor
      · intro e
        cases e
        exact ⟨0, rfl, h, fun q hq => absurd hq (Nat.not_lt_zero q)⟩
      · rintro ⟨r, rfl, -, hr⟩
        cases r with
        | zero => rfl
        | succ r => exact absurd h (hr 0 (Nat.succ_pos r))
    · rename_i h
      rw [isPrefixOf_iff_standsAt] at h
      rw [ih]
      constructor
      · rintro ⟨r, rfl, h1, h2⟩
        refine ⟨r + 1, by omega, standsAt_succ.mpr h1, fun q hq => ?_⟩
        cases q with
        | zero => exact h
        | succ q => exact fun hs => h2 q (by omega) (standsAt_succ.mp hs)
      · rintro ⟨r, rfl, h1, h2⟩
        cases r with
        | zero => exact absurd h1 h
        | succ r =>
          exact ⟨r, by omega, standsAt_succ.mp h1, fun q hq hs => h2 (q + 1) (by omega) (standsAt_succ.mpr hs)⟩

/-- The walk over valid frames ends with their characters and the exclusive-or of their data bits. -/
theorem walkFrames_valid (b : List Bit) (n : Nat) (lrc : List Bit) (par last j : Nat)
    (h : ∀ i < n, bitSum (slice b (j + 7 * i) 7) % 2 = 1) :
    (walkFrames b lrc par last j n).bad = none ∧
    (walkFrames b lrc par last j n).out = (List.range n).map (fun i => frameChar (slice b (j + 7 * i) 7)) ∧
    (walkFrames b lrc par last j n).lrcAcc =
      ((List.range n).map fun i => (slice b (j + 7 * i) 7).take 6).foldl xorColumns lrc := by
  induction n generalizing lrc par last j with
  | zero => simp [walkFrames]
  | succ n ih =>
    have h0 : frameValid (slice b j decodeWidth) = true := by
      simpa [frameValid, decodeWidth] using h 0 (Nat.succ_pos n)
    obtain ⟨h1, h2, h3⟩ := ih (xorColumns lrc ((slice b j decodeWidth).take 6))
      (parityAcc ((slice b j decodeWidth).take 6)) j (j + decodeWidth)
      (fun i hi => by
        have := h (i + 1) (by omega)
        rwa [show j + decodeWidth + 7 * i = j + 7 * (i + 1) by simp only [decodeWidth]; omega])
    have e : ∀ i, j + decodeWidth + 7 * i = j + 7 * (i + 1) := fun i => by simp only [decodeWidth]; omega
    simp only [walkFrames, h0, if_true, h1, h2, h3, List.range_succ_eq_map, List.map_cons, List.map_map,
      List.foldl_cons, e]
    exact ⟨trivial, rfl, rfl⟩

/-- The walk ends at its first invalid frame. -/
theorem walkFrames_invalid (b : List Bit) (n m : Nat) (lrc : List Bit) (par last j : Nat) (hm : m < n)
    (h : ∀ i < m, bitSum (slice b (j + 7 * i) 7) % 2 = 1) (hb : bitSum (slice b (j + 7 * m) 7) % 2 = 0) :
    (walkFrames b lrc par last j n).bad = some (frameChar (slice b (j + 7 * m) 7)) ∧
    (walkFrames b lrc par last j n).j = j + 7 * m := by
  induction m generalizing n lrc par last j with
  | zero =>
    cases n with
    | zero => omega
    | succ n =>
      have h0 : frameValid (slice b j decodeWidth) = false := by
        simp only [Nat.mul_zero, Nat.add_zero] at hb
        simp [frameValid, decodeWidth, hb]
      simp only [walkFrames, h0, Bool.false_eq_true, if_false, Nat.mul_zero, Nat.add_zero]
      exact ⟨rfl, trivial⟩
  | succ m ih =>
    cases n with
    | zero => omega
    | succ n =>
      have h0 : frameValid (slice b j decodeWidth) = true := by
        simpa [frameValid, decodeWidth] using h 0 (Nat.succ_pos m)
      have e : ∀ i, j + decodeWidth + 7 * i = j + 7 * (i + 1) := fun i => by simp only [decodeWidth]; omega
      obtain ⟨h1, h2⟩ := ih n (xorColumns lrc ((slice b j decodeWidth).take 6))
        (parityAcc ((slice b j decodeWidth).take 6)) j (j + decodeWidth) (by omega)
        (fun i hi => by rw [e]; exact h (i + 1) (by omega)) (by rw [e]; exact hb)
      simp only [walkFrames, h0, if_true, h1, h2, e]
      exact ⟨trivial, trivial⟩

/-- A value of `n` bits is below `2 ^ n`. -/
theorem valueLsbFirst_lt (d : List Bit) : valueLsbFirst d < 2 ^ d.length := by
  induction d with
  | nil => simp [valueLsbFirst]
  | cons x xs ih => cases x <;> simp [valueLsbFirst, Nat.pow_succ] <;> omega

end Sys2Proof.Machine
end

