-- ==== Sys2Proof/Laws/Encoder.lean ====
section
/-! SUPPORT. What the encoder's loop leaves, on a legal text and on one with an illegal character. -/

namespace Sys2Proof.Machine

/-- Every capacity fits its 32-bit register (00_scope.md R6). -/
theorem params_ok_bounds {P : Config.Params} (h : P.ok = true) :
    P.textCap < 2 ^ 32 ∧ P.bitsCap < 2 ^ 32 ∧ P.samplesCap < 2 ^ 32 := by
  unfold Config.Params.ok Config.maxCap at h
  simp only [Bool.and_eq_true, decide_eq_true_eq] at h
  obtain ⟨⟨⟨_, h2⟩, _, h4⟩, _, h6⟩ := h
  omega

/-- A written buffer reads as the sequence the host wrote. -/
theorem wrote_iff_bufPrefix {α : Type} {b : List (Nat × α)} {len : Word32} {vs : List α} :
    Wrote b len vs ↔ bufPrefix b len.toNat = some vs := by
  rw [bufPrefix_eq_some]
  exact ⟨fun h => ⟨h.1, fun k hk => h.2 k (h.1 ▸ hk)⟩, fun h => ⟨h.1, fun k hk => h.2 k (h.1 ▸ hk)⟩⟩

/-- A character is legal when its code lies between the profile's base and its greatest legal code. -/
theorem legalChar_iff (p : Profile) (c : Byte) :
    legalChar p c = true ↔ p.charBase ≤ c.toNat ∧ c.toNat ≤ p.charBase + p.maxRawValue := by
  simp only [legalChar, rawValue, Bool.and_eq_true]
  constructor
  · rintro ⟨h1, h2⟩
    have h1 := of_decide_eq_true h1
    have h2 := of_decide_eq_true h2
    omega
  · rintro ⟨h1, h2⟩
    exact ⟨decide_eq_true (by omega), decide_eq_true (by omega)⟩

/-- On a legal text the loop ends with its frames and the exclusive-or of its data bits. -/
theorem encodeChars_legal {p : Profile} {cs : List Byte} (h : AllLegal p cs) (k : Nat) (lrc : List Bit) (par : Nat) :
    (encodeChars p k lrc par cs).frames = framesOf p cs ∧
    (encodeChars p k lrc par cs).lrcAcc = (cs.map (dataBits p)).foldl xorColumns lrc ∧
    (encodeChars p k lrc par cs).k = k + cs.length ∧ (encodeChars p k lrc par cs).bad = none := by
  induction cs generalizing k lrc par with
  | nil => simp [encodeChars, framesOf]
  | cons c cs ih =>
    have hc := (legalChar_iff p c).mpr (h c (by simp))
    obtain ⟨h1, h2, h3, h4⟩ :=
      ih (fun d hd => h d (by simp [hd])) (k + 1) (xorColumns lrc (dataBits p c)) (parityAcc (dataBits p c))
    simp only [encodeChars, hc, if_true]
    refine ⟨?_, by simpa using h2, ?_, h4⟩
    · simp [h1, framesOf, frame]
    · rw [h3, List.length_cons]; omega

/-- On a text with an illegal character after a legal prefix the loop ends at that character. -/
theorem encodeChars_illegal {p : Profile} {before after : List Byte} {c : Byte} (h : AllLegal p before)
    (hc : ¬AllLegal p [c]) (k : Nat) (lrc : List Bit) (par : Nat) :
    (encodeChars p k lrc par (before ++ c :: after)).k = k + before.length ∧
    (encodeChars p k lrc par (before ++ c :: after)).bad = some c := by
  induction before generalizing k lrc par with
  | nil =>
    have : legalChar p c = false := by
      rw [Bool.eq_false_iff]
      intro hl
      refine hc fun d hd => ?_
      rw [List.mem_singleton] at hd
      subst hd
      exact (legalChar_iff p _).mp hl
    simp [encodeChars, this]
  | cons d before ih =>
    have hd := (legalChar_iff p d).mpr (h d (by simp))
    obtain ⟨h1, h2⟩ :=
      ih (fun e he => h e (by simp [he])) (k + 1) (xorColumns lrc (dataBits p d)) (parityAcc (dataBits p d))
    simp only [List.cons_append, encodeChars, hd, if_true]
    exact ⟨by rw [h1, List.length_cons]; omega, h2⟩

theorem autoProfile_of_selects {text : List Byte} {p : Profile} (h : Selects text p) :
    autoProfile text = some p := by
  obtain ⟨c, cs, rfl, ⟨rfl, rfl⟩ | ⟨hc, rfl⟩⟩ := h
  · rfl
  · have : c ≠ charPercent := hc
    simp [autoProfile, this, profile23]

/-- `encodeText` on a legal text. -/
theorem encodeText_legal {text : List Byte} {p : Profile} (hs : Selects text p) (hl : AllLegal p text) (pad : Nat) :
    encodeText text pad = .ok (framed p text pad, p) := by
  obtain ⟨h1, h2, -, h4⟩ := encodeChars_legal hl 0 (zeros p.dataWidth) 1
  simp only [encodeText, autoProfile_of_selects hs, encodeLoop, h4, h1, h2, framed, lrcOf]

/-- `encodeText` on a text whose first illegal character is `c`. -/
theorem encodeText_illegal {before after : List Byte} {c : Byte} {p : Profile}
    (hs : Selects (before ++ c :: after) p) (hl : AllLegal p before) (hc : ¬AllLegal p [c]) (pad : Nat) :
    encodeText (before ++ c :: after) pad =
      .error { code := .illegalCharacter, index := before.length, char := c, src := false } := by
  obtain ⟨h1, h2⟩ := encodeChars_illegal (after := after) hl hc 0 (zeros p.dataWidth) 1
  simp only [encodeText, autoProfile_of_selects hs, encodeLoop, h1, h2, Nat.zero_add]

end Sys2Proof.Machine
end

