-- ==== Sys2Proof/Laws/PerInstr.lean ====
section
/-! SUPPORT. A statement about every command as syntax, command by command. -/

namespace Sys2Proof.Laws.CarePattern

/-- A command's encoding has 0 in every field the command ignores, RSV = 0, and the OP the command's mask keeps whole
(30_encoding.md R54, R60, R63). -/
def Statement (i : Instr) : Prop :=
  encodeCmd i &&& i.careMask = encodeCmd i ∧ cmdRsv (encodeCmd i) = 0#9 ∧ i.careMask &&& 0xFF8F#16 = 0xFF8F#16

theorem resolve (sel : BitVec 2) : Statement (.resolve sel) := by
  unfold Statement; revert sel; decide

theorem encode : Statement .encode := by
  unfold Statement; decide

theorem decode : Statement .decode := by
  unfold Statement; decide

theorem synth (sel : BitVec 2) (rev : Bool) : Statement (.synth sel rev) := by
  unfold Statement; revert sel rev; decide

end Sys2Proof.Laws.CarePattern
end

