-- ==== Sys2Proof/Laws/Steps.lean ====
section
/-! SUPPORT. What a step, a host access and a buffer access can do, said once. -/

namespace Sys2Proof.Machine

/-- The core's turn is the state in which it moves next. -/
theorem turn_eq_core_iff (s : State) : s.turn = .core ↔ CoreMovesNext s := by
  unfold State.turn CoreMovesNext
  cases h : s.inputs with
  | nil => cases s.busy <;> simp
  | cons m rest => cases m <;> cases s.busy <;> simp

/-- An input that is not WAIT comes first whatever BUSY is. -/
theorem turn_of_input {s : State} {m : Input} {rest : List Input} (h : s.inputs = m :: rest) (hw : m ≠ .wait) :
    s.turn = .input m rest := by
  unfold State.turn
  rw [h]
  cases m <;> first | rfl | exact absurd rfl hw

/-- Everything a step can do: execute the issued command, take an input, or idle. -/
theorem step_cases (s : State) :
    (s.turn = .core ∧ step s = execute s) ∨
    (∃ m rest, s.turn = .input m rest ∧ step s = State.takeInput m { s with inputs := rest }) ∨
    (s.turn = .idle ∧ step s = .next s) := by
  unfold step
  cases s.turn with
  | core => exact .inl ⟨rfl, rfl⟩
  | input m rest => exact .inr (.inl ⟨m, rest, rfl, rfl⟩)
  | idle => exact .inr (.inr ⟨rfl, rfl⟩)

/-- An input is refused, or it is the access it names. -/
theorem takeInput_cases (m : Input) (s : State) :
    (s.busy = true ∧ m ≠ .reset ∧ m.readsStatus = false ∧
      State.takeInput m s = .refused .hostAccessWhileBusy) ∨
    ((s.busy = false ∨ m = .reset ∨ m.readsStatus = true) ∧ State.takeInput m s = State.access m s) := by
  unfold State.takeInput
  split
  · rename_i h
    simp only [Bool.and_eq_true, bne_iff_ne, ne_eq, Bool.not_eq_true'] at h
    exact .inl ⟨h.1.1, h.1.2, h.2, rfl⟩
  · rename_i h
    refine .inr ⟨?_, rfl⟩
    simp only [Bool.and_eq_true, bne_iff_ne, ne_eq, Bool.not_eq_true', not_and] at h
    cases hb : s.busy
    · exact .inl rfl
    · by_cases hr : m = .reset
      · exact .inr (.inl hr)
      · exact .inr (.inr (by simpa using h ⟨hb, hr⟩))

/-- A host read of a buffer that answers only adds a reading. -/
theorem hostBufRead_next {s t : State} {b k : Nat} (h : State.hostBufRead b k s = .next t) :
    ∃ id e, BufId.ofIndex b = some id ∧ k < id.capacity s.params ∧ s.mem.read id k = some e ∧
      t = s.observe (.elem b k e) := by
  unfold State.hostBufRead at h
  cases hid : BufId.ofIndex b with
  | none => rw [hid] at h; cases h
  | some id =>
    rw [hid] at h
    simp only at h
    split at h
    · cases h
    · rename_i hk
      cases he : s.mem.read id k with
      | none => rw [he] at h; cases h
      | some e =>
        rw [he] at h
        cases h
        exact ⟨id, e, rfl, Nat.lt_of_not_le hk, he, rfl⟩

/-- A host write of a buffer that answers only writes that buffer. -/
theorem hostBufWrite_next {s t : State} {b k v : Nat} (h : State.hostBufWrite b k v s = .next t) :
    ∃ id, BufId.ofIndex b = some id ∧ k < id.capacity s.params ∧
      t = { s with mem := s.mem.hostWrite id k v } := by
  unfold State.hostBufWrite at h
  cases hid : BufId.ofIndex b with
  | none => rw [hid] at h; cases h
  | some id =>
    rw [hid] at h
    simp only at h
    split at h
    · cases h
    · rename_i hk
      cases h
      exact ⟨id, rfl, Nat.lt_of_not_le hk, rfl⟩

/-- A register write changes no buffer, no output length, no result register and no model field. -/
theorem regWrite_frame (s : State) (i v : Nat) :
    ∃ cmd st pad spb la lb li, s.regWrite i v =
      { s with cmd := cmd, status := st, pad := pad, spb := spb, txtALen := la, txtBLen := lb, bitsInLen := li } ∧
      (st = s.status ∨ st = withBusy s.status) := by
  unfold State.regWrite
  cases Reg.ofIndex i with
  | none => exact ⟨_, _, _, _, _, _, _, rfl, .inl rfl⟩
  | some r => cases r <;> first
    | exact ⟨_, _, _, _, _, _, _, rfl, .inl rfl⟩
    | exact ⟨_, _, _, _, _, _, _, rfl, .inr rfl⟩

/-- A run of one step more, of any machine. -/
theorem run_succ_of_core (M : Host.Core) (n : Nat) (s : M.State) :
    M.run (n + 1) s =
      match M.step s with
      | .next s' => M.run n s'
      | .fault r => .fault r
      | .refused r => .refused r := rfl

/-- A run of one step more of the block. -/
theorem run_succ (n : Nat) (s : State) :
    Host.Core.run Sys2Proof.core (n + 1) s =
      match step s with
      | .next s' => Host.Core.run Sys2Proof.core n s'
      | .fault r => .fault r
      | .refused r => .refused r := by
  refine (run_succ_of_core Sys2Proof.core n s).trans ?_
  have h : Host.Core.step Sys2Proof.core s = step s := rfl
  rw [h]
  cases step s with
  | next t => rfl
  | fault t => rfl
  | refused t => rfl

end Sys2Proof.Machine
end

