-- ==== Sys2Proof/Laws/Synth.lean ====
section
/-! SUPPORT. What SYNTH's selector, its tests and its passes answer. -/

namespace Sys2Proof.Machine

/-- Every SEL but 0 is a track, with the alternate sentinel of 43_synth.md R102. -/
theorem trackOf_alt {sel : BitVec 2} (h : sel ≠ 0#2) : ∃ t, trackOf sel = some t ∧ altSentinel t = altOf sel := by
  have : sel = 1#2 ∨ sel = 2#2 ∨ sel = 3#2 := by revert sel; decide
  rcases this with rfl | rfl | rfl <;> exact ⟨_, rfl, rfl⟩

/-- A pass writes only the working state. -/
theorem runPass_eq (s : State) (bits : List Bit) :
    s.runPass bits =
      ({ s with work := { s.work with amp := (emitPass s.spb.toNat s.work.amp bits).2, passBits := bits,
                                      bitIdx := bits.length } },
        (emitPass s.spb.toNat s.work.amp bits).1) := rfl

theorem secondaryTest_true_iff (s : State) (t : Track) :
    s.secondaryTest t = some true ↔ BeginsWith s.mem.txtB s.txtBLen (altSentinel t) := by
  unfold State.secondaryTest BeginsWith
  split
  · rename_i h; simp [h]
  · rename_i h
    have h1 : 1 ≤ s.txtBLen.toNat := by omega
    cases bufRead s.mem.txtB 0 <;> simp [h1]

theorem secondaryTest_false_iff (s : State) (t : Track) :
    s.secondaryTest t = some false ↔ DoesNotBeginWith s.mem.txtB s.txtBLen (altSentinel t) := by
  unfold State.secondaryTest DoesNotBeginWith
  split
  · rename_i h; simp [h]
  · rename_i h
    cases bufRead s.mem.txtB 0 <;> simp [h]

theorem stopTest_true_iff (s : State) (t : Track) (rev : Bool) :
    s.stopTest t rev = some true ↔ rev = false ∨ DoesNotBeginWith s.mem.txtA s.txtALen (altSentinel t) := by
  unfold State.stopTest DoesNotBeginWith
  cases rev
  · simp
  · by_cases h : s.txtALen.toNat = 0
    · simp [h]
    · cases bufRead s.mem.txtA 0 <;> simp [h]

theorem stopTest_false_iff (s : State) (t : Track) (rev : Bool) :
    s.stopTest t rev = some false ↔ rev = true ∧ BeginsWith s.mem.txtA s.txtALen (altSentinel t) := by
  unfold State.stopTest BeginsWith
  cases rev
  · simp
  · by_cases h : s.txtALen.toNat = 0
    · simp [h]
    · have h1 : 1 ≤ s.txtALen.toNat := by omega
      cases bufRead s.mem.txtA 0 <;> simp [h, h1]

end Sys2Proof.Machine
end

