-- ==== Sys2Proof/Tests/Slice0.lean ====
section
/-! SUPPORT. The model's own tests, their expected values from spec/95_test_vectors.md or by hand from the rules, and for
every obligation with hypotheses a concrete case that meets all of them. -/

namespace Sys2Proof.Tests

open Sys2Proof Sys2Proof.Machine

/-! ## Helpers -/

/-- The parameters of the tests' small blocks. -/
def smallParams (textCap bitsCap samplesCap : Nat) : Config.Params :=
  { textCap := textCap, bitsCap := bitsCap, samplesCap := samplesCap, reverseSecondary := true }

/-- A block with the given inputs written, otherwise as reset leaves it. -/
def block (P : Config.Params) (a b : List Byte) (bits : List Bit) (pad spb : BitVec 16) : State :=
  { State.resetWith P with
    pad := pad, spb := spb, txtALen := BitVec.ofNat 32 a.length, txtBLen := BitVec.ofNat 32 b.length,
    bitsInLen := BitVec.ofNat 32 bits.length,
    mem := { Memory.reset with txtA := bufOfList a, txtB := bufOfList b, bitsIn := bufOfList bits } }

/-- A block with room for every test. -/
def roomy (a b : List Byte) (bits : List Bit) (spb : BitVec 16) : State :=
  block (smallParams 8 60 60) a b bits 0 spb

/-- An idle block with nothing written and one input pending. -/
def facing (m : Input) : State := { roomy [] [] [] 4 with inputs := [m] }

/-- Bits from digits, in stream order. -/
def bitsOf (ds : List Nat) : List Bit := ds.map (· == 1)

/-- A field of the next state. -/
def fieldOf {α : Type} (f : State → α) : Host.Outcome State Fault Refusal → Option α
  | .next s => some (f s)
  | .fault _ => none
  | .refused _ => none

/-- The next state, or reset where there is none. -/
def nextOf : Host.Outcome State Fault Refusal → State
  | .next s => s
  | .fault _ => State.reset
  | .refused _ => State.reset

theorem eq_nextOf {o : Host.Outcome State Fault Refusal} {α : Type} {f : State → α} {v : α}
    (h : fieldOf f o = some v) : o = .next (nextOf o) := by
  cases o <;> first | rfl | exact nomatch h

/-- `%?` framed without padding (95_test_vectors.md E2). -/
def bitsE2 : List Bit := bitsOf [1,0,1,0,0,0,1, 1,1,1,1,1,0,0, 0,1,0,1,1,0,0]

/-! ## Well-formedness -/

theorem test_resolve_sel_zero_is_ill_formed : (Instr.resolve 0#2).wellFormed = false := by decide
theorem test_synth_sel_zero_is_ill_formed : ∀ rev, (Instr.synth 0#2 rev).wellFormed = false := by decide
theorem test_other_commands_are_well_formed :
    (Instr.resolve 3#2).wellFormed = true ∧ Instr.encode.wellFormed = true ∧ Instr.decode.wellFormed = true ∧
    (Instr.synth 1#2 true).wellFormed = true := by decide

/-! ## Decoding: words written bit by bit as 30_encoding.md R54 lays them out, RSV REV SEL OP -/

theorem test_decode_resolve : decodeCmd 0b0000000000110001#16 = some (.resolve 3#2) := by decide
theorem test_decode_encode : decodeCmd 0b0000000000000010#16 = some .encode := by decide
theorem test_decode_decode : decodeCmd 0b0000000000000011#16 = some .decode := by decide
theorem test_decode_synth : decodeCmd 0b0000000001100100#16 = some (.synth 2#2 true) := by decide
theorem test_decode_table_words :
    decodeTableWord 16 0x0011 = some (.resolve 1#2) ∧ decodeTableWord 16 0x0002 = some .encode ∧
    decodeTableWord 16 0x0003 = some .decode ∧ decodeTableWord 16 0x0014 = some (.synth 1#2 false) ∧
    decodeTableWord 16 0x0001 = none ∧ decodeTableWord 16 0x0004 = none := by decide
theorem test_encode_words :
    encodeCmd (.resolve 2#2) = 0x0021#16 ∧ encodeCmd .encode = 0x0002#16 ∧ encodeCmd .decode = 0x0003#16 ∧
    encodeCmd (.synth 3#2 true) = 0x0074#16 := by decide

/-! ## Reset and the first step -/

theorem test_reset_memory_is_canonical : State.reset.mem.wf State.reset.params = true := by decide
theorem test_first_step_runs_the_word :
    fieldOf (·.prof) (step (State.reset.withFetchWord 16 0x0011)) = some 0x003F2007#32 ∧
    fieldOf (·.status) (step (State.reset.withFetchWord 16 0x0002)) = some 0x06#8 ∧
    fieldOf (·.status) (step (State.reset.withFetchWord 16 0x0003)) = some 0x02#8 ∧
    fieldOf (·.status) (step (State.reset.withFetchWord 16 0x0014)) = some 0x00#8 ∧
    fieldOf (·.status) (step (State.reset.withFetchWord 16 0x0001)) = some 0x08#8 := by decide

/-! ## One step of each command -/

/-- 95_test_vectors.md section 1.2. -/
theorem test_resolve_track2 :
    fieldOf (fun t => (t.prof, t.status)) (exec (.resolve 2#2) State.reset) = some (0x000F3005#32, 0x00#8) := by decide

/-- E10: `;?` under P23. -/
theorem test_encode_track2_text :
    fieldOf (fun t => (bufPrefix t.mem.bitsOut t.bitsOutLen.toNat, t.prof, t.status))
      (exec .encode (roomy [59#8, 63#8] [] [] 4)) =
      some (some (bitsOf [1,1,0,1,0, 1,1,1,1,1, 0,0,1,0,0]), 0x000F3005#32, 0x00#8) := by decide

/-- E18: a character below the base. -/
theorem test_encode_character_below_base :
    fieldOf (fun t => (t.status, t.errIndex, t.errChar, t.prof)) (exec .encode (roomy [47#8] [] [] 4)) =
      some (0x01#8, 0#32, 47#8, 0x000F3005#32) := by decide

/-- V5: an end pattern before the start is not considered. -/
theorem test_decode_ignores_an_end_before_the_start :
    fieldOf (fun t => (bufPrefix t.mem.txtOut t.txtOutLen.toNat, t.status))
      (exec .decode (roomy [] [] (bitsOf [1,1,1,1,1,0,0] ++ bitsE2) 4)) = some (some [37#8, 63#8], 0x00#8) := by decide

/-- V11, shortened to its failing frame: the error names the frame's position and its value. -/
theorem test_decode_parity_error :
    fieldOf (fun t => (t.status, t.errIndex, t.errChar))
      (exec .decode (roomy [] [] (bitsOf [1,0,1,0,0,0,1, 1,0,0,0,0,1,0, 1,1,1,1,1,0,0]) 4)) =
      some (0x04#8, 7#32, 65#8) := by decide

/-- S6: SPB = 5 gives half runs of 1 and full runs of 2. -/
theorem test_synth_one_pass :
    fieldOf (fun t => (bufPrefix t.mem.samples t.samplesLen.toNat, t.status))
      (exec (.synth 1#2 false) (roomy [] [] [true, false] 5)) =
      some (some [0x8001#16, 0x7FFF#16, 0x8001#16, 0x8001#16], 0x00#8) := by decide

/-- S15: the second pass is reversed and begins at the AMP the first left. -/
theorem test_synth_reversed_second_pass :
    fieldOf (fun t => bufPrefix t.mem.samples t.samplesLen.toNat)
      (exec (.synth 2#2 true) (roomy [37#8, 65#8, 63#8] [] [true, false] 4)) =
      some (some [0x8001#16, 0x7FFF#16, 0x8001#16, 0x8001#16, 0x7FFF#16, 0x7FFF#16, 0x8001#16, 0x7FFF#16]) := by
  decide

/-! ## Witnesses: a concrete case that meets every hypothesis of an obligation -/

/-- A block whose command word `w` runs next. -/
def issued (w : BitVec 16) : State := (roomy [] [] [] 4).issue w

theorem issued_moves_next (w : BitVec 16) : CoreMovesNext (issued w) :=
  ⟨statusBusy_withBusy _, .inl rfl⟩

theorem witness_IllegalWordCompletesWithIllegalCommand :
    (CoreMovesNext (issued 0x0005#16) ∧ decodeCmd (issued 0x0005#16).cmd = none) ∧
    (CoreMovesNext (issued 0x0080#16) ∧ decodeCmd (issued 0x0080#16).cmd = none) :=
  ⟨⟨issued_moves_next _, by decide⟩, ⟨issued_moves_next _, by decide⟩⟩

theorem witness_IgnoredFieldsDoNotChangeTheResult :
    (CoreMovesNext (issued 0) ∧ DifferInIgnoredFields 0x0002#16 0x0072#16) ∧
    (CoreMovesNext (issued 0) ∧ DifferInIgnoredFields 0x0011#16 0x0051#16) :=
  ⟨⟨issued_moves_next _, by unfold DifferInIgnoredFields; decide⟩,
    ⟨issued_moves_next _, by unfold DifferInIgnoredFields; decide⟩⟩

theorem witness_StepExecutesTheDecodedCommand :
    CoreMovesNext (issued 0x0054#16) ∧ decodeCmd (issued 0x0054#16).cmd = some (.synth 1#2 true) :=
  ⟨issued_moves_next _, by decide⟩

theorem witness_WritingCmdWhileIdleIssuesTheCommand :
    (facing (.regWrite 0 2)).busy = false ∧ (facing (.regWrite 0 2)).inputs = .regWrite 0 2 :: [] := by decide

theorem witness_OnlyStatusMayBeReadWhileBusy :
    ∀ m ∈ [Input.regRead 0, .regRead 1, .regRead 2, .regWrite 0 2, .bufRead 0 0],
      ({ issued 2 with inputs := [m] } : State).busy = true ∧
      ({ issued 2 with inputs := [m] } : State).inputs = m :: [] ∧ m ≠ .wait ∧ m ≠ .reset := by decide

theorem witness_IssuedCommandIsExecutedAfterThePolls :
    (issued 2).busy = true ∧ (issued 2).inputs = List.replicate 0 (.regRead 1) ++ [] ∧
    ({ issued 2 with inputs := [.regRead 1, .regRead 1, .wait] } : State).inputs =
      List.replicate 2 (.regRead 1) ++ [.wait] := by decide

theorem witness_RegisterReadReturnsTheRegister :
    ((facing .wait).busy = false ∧ (facing .wait).inputs = .wait :: []) ∧
    ∀ i ∈ List.range 15, (facing (.regRead i)).busy = false ∧ (facing (.regRead i)).inputs = .regRead i :: [] := by
  decide

theorem witness_RegisterWriteTruncatesOrIsIgnored :
    (∀ i ∈ List.range 15,
      (facing (.regWrite i 65536)).busy = false ∧ (facing (.regWrite i 65536)).inputs = .regWrite i 65536 :: []) ∧
    (issued 2).busy = true := by decide

theorem witness_BufferWriteSetsOneElementOrNothing :
    ∀ b ∈ List.range 6, (facing (.bufWrite b 7 257)).busy = false ∧
      (facing (.bufWrite b 7 257)).inputs = .bufWrite b 7 257 :: [] ∧
      ∃ id, BufId.ofIndex b = some id ∧ 7 < id.capacity (facing (.bufWrite b 7 257)).params := by
  intro b hb
  have : b = 0 ∨ b = 1 ∨ b = 2 ∨ b = 3 ∨ b = 4 ∨ b = 5 := by simp at hb; omega
  rcases this with rfl | rfl | rfl | rfl | rfl | rfl <;> exact ⟨rfl, rfl, _, rfl, by decide⟩

/-- The last element of a full TXT_A, and an element of TXT_B that holds no value. -/
theorem witness_BufferReadReturnsTheElementOrFaults :
    let s : State := { roomy [1, 2, 3, 4, 5, 6, 7, 8] [] [] 4 with inputs := [.bufRead 0 7] }
    s.busy = false ∧ s.inputs = .bufRead 0 7 :: [] ∧ BufId.ofIndex 0 = some .txtA ∧ 7 < BufId.txtA.capacity s.params ∧
    s.mem.read .txtA 7 = some (.char 8) ∧
    (BufId.ofIndex 1 = some .txtB ∧ 0 < BufId.txtB.capacity s.params ∧ s.mem.read .txtB 0 = none) := by decide

theorem witness_BufferAccessPastCapacityFaults :
    ((facing (.bufRead 6 0)).busy = false ∧ (facing (.bufRead 6 0)).inputs = .bufRead 6 0 :: []) ∧
    ((facing (.bufWrite 0 8 1)).busy = false ∧ (facing (.bufWrite 0 8 1)).inputs = .bufWrite 0 8 1 :: [] ∧
      BufId.ofIndex 0 = some .txtA ∧ BufId.txtA.capacity (facing (.bufWrite 0 8 1)).params ≤ 8) := by decide

theorem witness_ResetInputRestoresTheResetState :
    (facing .reset).inputs = .reset :: [] ∧ ({ issued 2 with inputs := [.reset] } : State).busy = true := by decide

theorem witness_IdleBlockKeepsItsState : State.reset.busy = false ∧ State.reset.inputs = [] := by decide

theorem witness_ResolveWritesTheSelectedProfile : (1#2 ≠ 0#2) ∧ (2#2 ≠ 0#2) ∧ (3#2 ≠ 0#2) := by decide

/-! ### ENCODE -/

theorem wrote_of_prefix {α : Type} {b : List (Nat × α)} {len : Word32} {vs : List α}
    (h : bufPrefix b len.toNat = some vs) : Wrote b len vs := wrote_iff_bufPrefix.mpr h

theorem selects_p1 (cs : List Byte) : Selects (37#8 :: cs) profile1 := ⟨_, _, rfl, .inl ⟨rfl, rfl⟩⟩

theorem selects_p23 {c : Byte} (h : c ≠ 37#8) (cs : List Byte) : Selects (c :: cs) profile23 :=
  ⟨_, _, rfl, .inr ⟨h, rfl⟩⟩

/-- E2, whose 21 bits just fit. -/
theorem witness_EncodeStoresTheFramedText :
    let s := block (smallParams 2 21 1) [37#8, 63#8] [] [] 0 4
    s.params.ok = true ∧ s.txtALen.toNat ≤ s.params.textCap ∧ Wrote s.mem.txtA s.txtALen [37#8, 63#8] ∧
    Selects [37#8, 63#8] profile1 ∧ AllLegal profile1 [37#8, 63#8] ∧
    (framed profile1 [37#8, 63#8] s.pad.toNat).length ≤ s.params.bitsCap :=
  ⟨by decide, by decide, wrote_of_prefix (by decide), selects_p1 _, by unfold AllLegal; decide, by decide⟩

theorem witness_EncodeRejectsTooLongAndEmptyText :
    (let s := block (smallParams 1 21 1) [37#8, 63#8] [] [] 0 4;
      s.params.textCap < s.txtALen.toNat) ∧
    (roomy [] [] [] 4).txtALen.toNat = 0 := by decide

/-- E22, and a first character that is illegal (E17). -/
theorem witness_EncodeReportsTheFirstIllegalCharacter :
    (let s := block (smallParams 3 21 1) [63#8, 48#8, 37#8] [] [] 0 4;
      s.txtALen.toNat ≤ s.params.textCap ∧ Wrote s.mem.txtA s.txtALen ([63#8, 48#8] ++ 37#8 :: []) ∧
      Selects ([63#8, 48#8] ++ 37#8 :: []) profile23 ∧ AllLegal profile23 [63#8, 48#8] ∧
      ¬AllLegal profile23 [37#8]) ∧
    (let s := block (smallParams 1 21 1) [65#8] [] [] 0 4;
      s.txtALen.toNat ≤ s.params.textCap ∧ Wrote s.mem.txtA s.txtALen ([] ++ 65#8 :: []) ∧
      Selects ([] ++ 65#8 :: []) profile23 ∧ AllLegal profile23 [] ∧ ¬AllLegal profile23 [65#8]) :=
  ⟨⟨by decide, wrote_of_prefix (by decide), selects_p23 (by decide) _, by unfold AllLegal; decide,
      by unfold AllLegal; decide⟩,
    ⟨by decide, wrote_of_prefix (by decide), selects_p23 (by decide) _, by unfold AllLegal; decide,
      by unfold AllLegal; decide⟩⟩

/-- E2 with room for one bit less than it needs. -/
theorem witness_EncodeRejectsATooLongBitstream :
    let s := block (smallParams 2 20 1) [37#8, 63#8] [] [] 0 4
    s.txtALen.toNat ≤ s.params.textCap ∧ Wrote s.mem.txtA s.txtALen [37#8, 63#8] ∧
    Selects [37#8, 63#8] profile1 ∧ AllLegal profile1 [37#8, 63#8] ∧
    s.params.bitsCap < (framed profile1 [37#8, 63#8] s.pad.toNat).length :=
  ⟨by decide, wrote_of_prefix (by decide), selects_p1 _, by unfold AllLegal; decide, by decide⟩

theorem witness_FailedEncodeLeavesNoBitstream :
    ∃ t, exec .encode (roomy [] [] [] 4) = .next t ∧ statusCode t.status ≠ 0#4 :=
  ⟨_, eq_nextOf (f := (·.status)) (v := 0x06#8) (by decide), by decide⟩

theorem witness_EncodedTextHasTheStatedLength :
    Selects [59#8, 63#8] profile23 ∧ AllLegal profile23 [59#8, 63#8] :=
  ⟨selects_p23 (by decide) _, by unfold AllLegal; decide⟩

theorem witness_EncodedFramesAreOddAndTheTrailerTheirXor :
    encodeText [37#8, 63#8] 0 = .ok (bitsE2, profile1) := by
  rw [encodeText_legal (selects_p1 _) (by unfold AllLegal; decide)]
  have : framed profile1 [37#8, 63#8] 0 = bitsE2 := by decide
  rw [this]

/-! ### DECODE -/

/-- A stream too short for the pattern has it nowhere. -/
theorem stands_nowhere (pat b : List Bit) (h : ∀ p < b.length + 1, ¬StandsAt pat b p) (hp : pat ≠ []) (p : Nat) :
    ¬StandsAt pat b p := by
  by_cases hlt : p < b.length + 1
  · exact h p hlt
  · intro hs
    have h1 := hs.1
    have h2 : 0 < pat.length := List.length_pos_of_ne_nil hp
    omega

theorem witness_StartSearchFindsTheFirstStartPattern :
    (roomy [] [] (zeros 7) 4).bitsInLen.toNat ≤ (roomy [] [] (zeros 7) 4).params.bitsCap ∧
    Wrote (roomy [] [] (zeros 7) 4).mem.bitsIn (roomy [] [] (zeros 7) 4).bitsInLen (zeros 7) ∧
    ∀ p, ¬StandsAt [true, false, true, false, false, false, true] (zeros 7) p :=
  ⟨by decide, wrote_of_prefix (by decide), stands_nowhere _ _ (by unfold StandsAt; decide) (by decide)⟩

/-- The start pattern alone. -/
theorem witness_EndSearchFindsTheLeastAlignedEndPattern :
    let b := bitsOf [1,0,1,0,0,0,1]
    let s := roomy [] [] b 4
    s.bitsInLen.toNat ≤ s.params.bitsCap ∧ Wrote s.mem.bitsIn s.bitsInLen b ∧ FirstAt startPattern b 0 ∧
    ∀ p, ¬AlignedEnd b 0 p :=
  ⟨by decide, wrote_of_prefix (by decide), by unfold FirstAt StandsAt; decide, fun p h =>
    stands_nowhere endPattern (bitsOf [1,0,1,0,0,0,1]) (by unfold StandsAt; decide) (by decide) p h.2.1⟩

/-- `%?` written to BITS_IN. -/
def decodable : State := roomy [] [] bitsE2 4

theorem decodes_e2 : DecodesTo bitsE2 [37#8, 63#8] :=
  ⟨0, by unfold FirstAt StandsAt; decide, ⟨[], rfl, fun _ h => by simp at h⟩, by decide⟩

theorem witness_DecodeStoresTheDecodedText :
    decodable.params.ok = true ∧ decodable.bitsInLen.toNat ≤ decodable.params.bitsCap ∧
    Wrote decodable.mem.bitsIn decodable.bitsInLen bitsE2 ∧ DecodesTo bitsE2 [37#8, 63#8] ∧
    [37#8, 63#8].length ≤ decodable.params.textCap :=
  ⟨by decide, by decide, wrote_of_prefix (by decide), decodes_e2, by decide⟩

/-- One stream for each failing step: V7, V9, V11 shortened, V14. -/
def noStart : List Bit := zeros 14
def noEnd : List Bit := bitsOf [1,0,1,0,0,0,1, 0,0,0,0,0,0,0]
def badParity : List Bit := bitsOf [1,0,1,0,0,0,1, 1,0,0,0,0,1,0, 1,1,1,1,1,0,0]
def badTrailer : List Bit := bitsOf [1,0,1,0,0,0,1, 1,1,1,1,1,0,0, 0,0,0,0,0,0,1]

theorem witness_DecodeReportsTheFirstFailingStep :
    (∀ b ∈ [noStart, noEnd, badParity, badTrailer], (roomy [] [] b 4).bitsInLen.toNat ≤ (roomy [] [] b 4).params.bitsCap ∧
      Wrote (roomy [] [] b 4).mem.bitsIn (roomy [] [] b 4).bitsInLen b) ∧
    (∀ p, ¬StandsAt startPattern noStart p) ∧
    (FirstAt startPattern noEnd 0 ∧ ∀ p, ¬AlignedEnd noEnd 0 p) ∧
    (FirstAt startPattern badParity 0 ∧ FirstAlignedEnd badParity 0 14 ∧ 0 + 7 * 1 ≤ 14 ∧
      (∀ i < 1, bitSum (slice badParity (0 + 7 * i) 7) % 2 = 1) ∧ bitSum (slice badParity (0 + 7 * 1) 7) % 2 = 0) ∧
    (FirstAt startPattern badTrailer 0 ∧ FirstAlignedEnd badTrailer 0 7 ∧
      (∀ i, 0 + 7 * i ≤ 7 → bitSum (slice badTrailer (0 + 7 * i) 7) % 2 = 1) ∧
      slice badTrailer (7 + 7) 7 ≠ withParity (streamLrc badTrailer 0 ((7 - 0) / 7 + 1))) := by
  refine ⟨fun b hb => ?_, stands_nowhere _ _ (by unfold StandsAt; decide) (by decide), ⟨?_, ?_⟩, ⟨?_, ?_, ?_, ?_, ?_⟩,
    ⟨?_, ?_, ?_, ?_⟩⟩
  · simp only [List.mem_cons, List.not_mem_nil, or_false] at hb
    rcases hb with rfl | rfl | rfl | rfl <;> exact ⟨by decide, wrote_of_prefix (by decide)⟩
  · unfold FirstAt StandsAt; decide
  · exact fun p h => stands_nowhere endPattern noEnd (by unfold StandsAt; decide) (by decide) p h.2.1
  · unfold FirstAt StandsAt; decide
  · unfold FirstAlignedEnd AlignedEnd StandsAt; decide
  · decide
  · decide
  · decide
  · unfold FirstAt StandsAt; decide
  · unfold FirstAlignedEnd AlignedEnd StandsAt; decide
  · intro i hi
    have : i = 0 ∨ i = 1 := by omega
    rcases this with rfl | rfl <;> decide
  · decide

/-- One bit, and one character, more than there is room for. -/
theorem witness_DecodeRejectsWhatExceedsCapacity :
    (let s := block (smallParams 2 20 1) [] [] bitsE2 0 4;
      s.params.bitsCap < s.bitsInLen.toNat) ∧
    (let s := block (smallParams 1 21 1) [] [] bitsE2 0 4;
      s.bitsInLen.toNat ≤ s.params.bitsCap ∧ Wrote s.mem.bitsIn s.bitsInLen bitsE2 ∧ DecodesTo bitsE2 [37#8, 63#8] ∧
      s.params.textCap < [37#8, 63#8].length) :=
  ⟨by decide, by decide, wrote_of_prefix (by decide), decodes_e2, by decide⟩

theorem witness_FailedDecodeLeavesNoText :
    ∃ t, exec .decode (roomy [] [] [] 4) = .next t ∧ statusCode t.status ≠ 0#4 :=
  ⟨_, eq_nextOf (f := (·.status)) (v := 0x02#8) (by decide), by decide⟩

theorem witness_DecodedTextHasTheStatedShape :
    decodable.params.ok = true ∧ Wrote decodable.mem.bitsIn decodable.bitsInLen bitsE2 ∧
    (∃ t, exec .decode decodable = .next t ∧ statusCode t.status = 0#4) ∧ FirstAt startPattern bitsE2 0 ∧
    FirstAlignedEnd bitsE2 0 7 :=
  ⟨by decide, wrote_of_prefix (by decide),
    ⟨_, eq_nextOf (f := (·.status)) (v := 0x00#8) (by decide), by decide⟩,
    by unfold FirstAt StandsAt; decide, by unfold FirstAlignedEnd AlignedEnd StandsAt; decide⟩

theorem witness_PaddingAndTrailingBitsDoNotAffectTheText : decodeBits bitsE2 = .ok [37#8, 63#8] := by rfl

/-- BITS_IN held two bits more than the copy reaches, as after a longer LOADBITS. -/
theorem witness_DecodeOfTheCopiedEncodingRestoresTheText :
    let s := roomy [37#8, 63#8] [] [] 4
    s.params.ok = true ∧ Wrote s.mem.txtA s.txtALen [37#8, 63#8] ∧ TrackText [37#8, 63#8] ∧
    ∃ t, exec .encode s = .next t ∧ statusCode t.status = 0#4 ∧
      ∀ k < t.bitsOutLen.toNat, bufRead (bufOfList (bitsE2 ++ [true, true])) k = bufRead t.mem.bitsOut k :=
  ⟨by decide, wrote_of_prefix (by decide), ⟨[], rfl, fun _ h => by simp at h⟩,
    ⟨_, eq_nextOf (f := (·.status)) (v := 0x00#8) (by decide), by decide, by decide⟩⟩

/-! ### SYNTH -/

theorem synth_ready_of_prefix {s : State} {b : List Bit} (h1 : s.bitsInLen.toNat ≤ s.params.bitsCap)
    (h2 : s.txtALen.toNat ≤ s.params.textCap) (h3 : s.txtBLen.toNat ≤ s.params.textCap)
    (h4 : bufPrefix s.mem.bitsIn s.bitsInLen.toNat = some b)
    (h5 : (emitPass s.spb.toNat 32767 b).1.length ≤ s.params.samplesCap) : SynthReady s b :=
  ⟨h1, h2, h3, wrote_of_prefix h4, h5⟩

/-- SPB = 3 and SPB = 1 at the edges, and S10. -/
theorem witness_TinySamplesPerBitEmitNothing :
    (3 ≤ 3 ∧ 1 ≤ 1) ∧ (roomy [] [] [true, false] 1).spb.toNat ≤ 1 ∧
    ∃ t, exec (.synth 1#2 false) (roomy [] [] [true, false] 1) = .next t ∧ statusCode t.status = 0#4 :=
  ⟨by decide, by decide, _, eq_nextOf (f := (·.status)) (v := 0x00#8) (by decide), by decide⟩

/-- S19 (REV = 0) and S18 (REV = 1, another first character), TXT_B empty. -/
theorem witness_SynthStopsAfterTheFirstPass :
    (let s := roomy [37#8] [] [true, false] 4;
      s.params.ok = true ∧ 2#2 ≠ 0#2 ∧ SynthReady s [true, false] ∧
      DoesNotBeginWith s.mem.txtB s.txtBLen (altOf 2#2) ∧
      (false = false ∨ DoesNotBeginWith s.mem.txtA s.txtALen (altOf 2#2))) ∧
    (let s := roomy [59#8] [] [true, false] 4;
      s.params.ok = true ∧ 2#2 ≠ 0#2 ∧ SynthReady s [true, false] ∧
      DoesNotBeginWith s.mem.txtB s.txtBLen (altOf 2#2) ∧
      (true = false ∨ DoesNotBeginWith s.mem.txtA s.txtALen (altOf 2#2))) :=
  ⟨⟨by decide, by decide, synth_ready_of_prefix (by decide) (by decide) (by decide) (by decide) (by decide),
      .inl (by decide), .inl rfl⟩,
    ⟨by decide, by decide, synth_ready_of_prefix (by decide) (by decide) (by decide) (by decide) (by decide),
      .inl (by decide), .inr (.inr ⟨59#8, by decide, by decide⟩)⟩⟩

/-- S25: TXT_B begins with another character, TXT_A with the alternate sentinel. -/
theorem witness_SynthAddsTheReversedPrimaryPass :
    let s := block (smallParams 3 2 8) [37#8, 65#8, 63#8] [59#8] [true, false] 0 4
    s.params.ok = true ∧ 2#2 ≠ 0#2 ∧ SynthReady s [true, false] ∧
    DoesNotBeginWith s.mem.txtB s.txtBLen (altOf 2#2) ∧ BeginsWith s.mem.txtA s.txtALen (altOf 2#2) ∧
    (twoPasses s.spb.toNat [true, false] [true, false].reverse).length ≤ s.params.samplesCap :=
  ⟨by decide, by decide, synth_ready_of_prefix (by decide) (by decide) (by decide) (by decide) (by decide),
    .inr ⟨59#8, by decide, by decide⟩, ⟨by decide, by decide⟩, by decide⟩

/-- `;` as second track of SEL 1: 10 bits and 22 samples, which just fit. -/
theorem witness_SynthAddsTheSecondTrackPass :
    let s := block (smallParams 1 10 22) [] [59#8] [false] 0 4
    s.params.ok = true ∧ 1#2 ≠ 0#2 ∧ SynthReady s [false] ∧ Wrote s.mem.txtB s.txtBLen [59#8] ∧
    [59#8].head? = some (altOf 1#2) ∧ Selects [59#8] profile23 ∧ AllLegal profile23 [59#8] ∧
    (framed profile23 [59#8] 0).length ≤ s.params.bitsCap ∧
    (twoPasses s.spb.toNat [false] (secondTrackBits s.params profile23 [59#8])).length ≤ s.params.samplesCap :=
  ⟨by decide, by decide, synth_ready_of_prefix (by decide) (by decide) (by decide) (by decide) (by decide),
    wrote_of_prefix (by decide), by decide, selects_p23 (by decide) _, by unfold AllLegal; decide, by decide, by decide⟩

/-- S26, and S28 for an error that keeps nothing. -/
theorem witness_FailedSecondTrackKeepsTheFirstPass :
    (let s := roomy [] [59#8, 65#8] [false] 4;
      s.params.ok = true ∧ 1#2 ≠ 0#2 ∧ SynthReady s [false] ∧ Wrote s.mem.txtB s.txtBLen ([59#8] ++ 65#8 :: []) ∧
      ([59#8] ++ 65#8 :: []).head? = some (altOf 1#2) ∧ Selects ([59#8] ++ 65#8 :: []) profile23 ∧
      AllLegal profile23 [59#8] ∧ ¬AllLegal profile23 [65#8]) ∧
    (1#2 ≠ 0#2 ∧ ∃ t, exec (.synth 1#2 false) (block (smallParams 1 2 7) [] [] [false, true] 0 8) = .next t ∧
      statusCode t.status ≠ 0#4 ∧ t.status ≠ 0x11#8) :=
  ⟨⟨by decide, by decide, synth_ready_of_prefix (by decide) (by decide) (by decide) (by decide) (by decide),
      wrote_of_prefix (by decide), by decide, selects_p23 (by decide) _, by unfold AllLegal; decide,
      by unfold AllLegal; decide⟩,
    by decide, _, eq_nextOf (f := (·.status)) (v := 0x07#8) (by decide), by decide, by decide⟩

/-- Each of SYNTH's capacity checks, one over its bound. -/
theorem witness_SynthRejectsWhatExceedsCapacity :
    (1#2 ≠ 0#2 ∧ 2#2 ≠ 0#2) ∧
    (let s := block (smallParams 1 1 60) [] [] [false, true] 0 4;
      s.params.bitsCap < s.bitsInLen.toNat) ∧
    (let s := block (smallParams 1 2 60) [] [59#8, 63#8] [] 0 4;
      s.params.textCap < s.txtBLen.toNat) ∧
    (let s := block (smallParams 1 2 7) [] [] [false, true] 0 8;
      s.bitsInLen.toNat ≤ s.params.bitsCap ∧ s.txtALen.toNat ≤ s.params.textCap ∧
      s.txtBLen.toNat ≤ s.params.textCap ∧ Wrote s.mem.bitsIn s.bitsInLen [false, true] ∧
      s.params.samplesCap < (emitPass s.spb.toNat 32767 [false, true]).1.length) ∧
    (let s := block (smallParams 1 9 60) [] [59#8] [false] 0 4;
      SynthReady s [false] ∧ Wrote s.mem.txtB s.txtBLen [59#8] ∧ [59#8].head? = some (altOf 1#2) ∧
      Selects [59#8] profile23 ∧ AllLegal profile23 [59#8] ∧
      s.params.bitsCap < (framed profile23 [59#8] 0).length) ∧
    (let s := block (smallParams 1 10 21) [] [59#8] [false] 0 4;
      SynthReady s [false] ∧ Wrote s.mem.txtB s.txtBLen [59#8] ∧ [59#8].head? = some (altOf 1#2) ∧
      Selects [59#8] profile23 ∧ AllLegal profile23 [59#8] ∧
      (framed profile23 [59#8] 0).length ≤ s.params.bitsCap ∧
      s.params.samplesCap < (twoPasses s.spb.toNat [false] (secondTrackBits s.params profile23 [59#8])).length) ∧
    (let s := block (smallParams 3 2 7) [37#8, 65#8, 63#8] [] [true, false] 0 4;
      SynthReady s [true, false] ∧ DoesNotBeginWith s.mem.txtB s.txtBLen (altOf 2#2) ∧
      BeginsWith s.mem.txtA s.txtALen (altOf 2#2) ∧
      s.params.samplesCap < (twoPasses s.spb.toNat [true, false] [true, false].reverse).length) :=
  ⟨by decide, by decide, by decide,
    ⟨by decide, by decide, by decide, wrote_of_prefix (by decide), by decide⟩,
    ⟨synth_ready_of_prefix (by decide) (by decide) (by decide) (by decide) (by decide), wrote_of_prefix (by decide),
      by decide, selects_p23 (by decide) _, by unfold AllLegal; decide, by decide⟩,
    ⟨synth_ready_of_prefix (by decide) (by decide) (by decide) (by decide) (by decide), wrote_of_prefix (by decide),
      by decide, selects_p23 (by decide) _, by unfold AllLegal; decide, by decide, by decide⟩,
    ⟨synth_ready_of_prefix (by decide) (by decide) (by decide) (by decide) (by decide), .inl (by decide),
      ⟨by decide, by decide⟩, by decide⟩⟩

/-! ### Every command -/

theorem witness_CommandsCompleteOnWrittenInputs :
    let s := roomy [37#8, 63#8] [59#8] bitsE2 4
    ¬Unwritten s.mem.txtA s.txtALen.toNat ∧ ¬Unwritten s.mem.txtB s.txtBLen.toNat ∧
    ¬Unwritten s.mem.bitsIn s.bitsInLen.toNat := by
  unfold Unwritten; decide

theorem witness_SynthFaultsExactlyOnUnwrittenInput : 3#2 ≠ 0#2 := by decide

theorem witness_CommandsWriteOnlyTheirWriteSets :
    (∃ t, exec .encode (roomy [37#8, 63#8] [] [] 4) = .next t) ∧
    (CoreMovesNext (issued 0x0001#16) ∧ decodeCmd (issued 0x0001#16).cmd = none ∧ ∃ t, step (issued 0x0001#16) = .next t) :=
  ⟨⟨_, eq_nextOf (f := (·.status)) (v := 0x00#8) (by decide)⟩, issued_moves_next _, by decide,
    _, eq_nextOf (f := (·.status)) (v := 0x08#8) (by decide)⟩

theorem witness_CompletionsLeaveAFittingErrorRecord :
    ∃ t, exec .encode (roomy [47#8] [] [] 4) = .next t :=
  ⟨_, eq_nextOf (f := (·.status)) (v := 0x01#8) (by decide)⟩

theorem witness_SamplesAreOnlyPlusOrMinusPeak :
    1#2 ≠ 0#2 ∧ ∃ t, exec (.synth 1#2 false) (roomy [] [] [true] 4) = .next t ∧
      bufRead t.mem.samples 0 = some 0x8001#16 :=
  ⟨by decide, _, eq_nextOf (f := (·.status)) (v := 0x00#8) (by decide), by decide⟩

theorem witness_StepsKeepTheParameters : ∃ t, step (facing (.regWrite 4 1)) = .next t :=
  ⟨_, eq_nextOf (f := (·.pad)) (v := 1#16) (by decide)⟩

/-- The invariant holds of a block that is about to run an ENCODE, and the step answers. -/
theorem witness_EveryStepKeepsTheInvariant :
    let s := (roomy [37#8, 63#8] [] [] 4).issue 0x0002#16
    Inv s ∧ ∃ t, step s = .next t := by
  refine ⟨⟨by decide, by decide, by unfold StatusLegal; decide, .inl rfl, ⟨?_, ?_, ?_⟩, ?_, ?_,
    by unfold RecordLegal; decide, ⟨rfl, .inl rfl⟩⟩, _, eq_nextOf (f := (·.status)) (v := 0x00#8) (by decide)⟩
  · intro k; exact ⟨fun h => absurd h Bool.false_ne_true, fun h => absurd h (Nat.not_lt_zero k)⟩
  · intro k; exact ⟨fun h => absurd h Bool.false_ne_true, fun h => absurd h (Nat.not_lt_zero k)⟩
  · intro k; exact ⟨fun h => absurd h Bool.false_ne_true, fun h => absurd h (Nat.not_lt_zero k)⟩
  · intro k v h; exact nomatch h
  · intro k v h; exact nomatch h

end Sys2Proof.Tests
end

/-! Every step keeps the parameters (10_state.md R14; log 1): the meanings of the commands first, then the host's
accesses, then the step that chooses between them. -/

namespace Sys2Proof.Machine

variable {s t : State}

theorem execResolve_keeps_params {sel : BitVec 2} (h : execResolve sel s = .next t) : t.params = s.params := by
  obtain ⟨_, hr⟩ | ⟨_, _, hr⟩ := execResolve_cases sel s
  all_goals
    rw [hr] at h
    cases h
    rfl

theorem execEncode_keeps_params (h : execEncode s = .next t) : t.params = s.params := by
  obtain ⟨_, _, _, _, rfl, _⟩ := execEncode_next h
  rfl

theorem execDecode_keeps_params (h : execDecode s = .next t) : t.params = s.params := by
  obtain ⟨_, _, _, rfl, _⟩ := execDecode_next h
  rfl

theorem execSynth_keeps_params {sel : BitVec 2} {rev : Bool} (h : execSynth sel rev s = .next t) :
    t.params = s.params := by
  obtain ⟨_, rfl⟩ | ⟨_, _, _, _, rfl, _⟩ := execSynth_next h
  · rfl
  · rfl

theorem exec_keeps_params {i : Instr} (h : exec i s = .next t) : t.params = s.params := by
  cases i with
  | resolve sel => exact execResolve_keeps_params h
  | encode => exact execEncode_keeps_params h
  | decode => exact execDecode_keeps_params h
  | synth sel rev => exact execSynth_keeps_params h

theorem execute_keeps_params (h : execute s = .next t) : t.params = s.params := by
  unfold execute at h
  cases hd : decodeCmd s.cmd with
  | none =>
    rw [hd] at h
    cases h
    rfl
  | some i =>
    rw [hd] at h
    exact exec_keeps_params h

@[simp] theorem regWrite_params (s : State) (i v : Nat) : (s.regWrite i v).params = s.params := by
  obtain ⟨_, _, _, _, _, _, _, hw, _⟩ := regWrite_frame s i v
  rw [hw]

/-- Reset too: the parameters are not among what it restores (70_reset_and_hazards.md R130; log 12). -/
theorem access_keeps_params {m : Input} (h : s.access m = .next t) : t.params = s.params := by
  cases m with
  | regRead i => cases h; rfl
  | regWrite i v => cases h; exact regWrite_params s i v
  | bufRead b k =>
    obtain ⟨_, _, _, _, _, rfl⟩ := hostBufRead_next h
    rfl
  | bufWrite b k v =>
    obtain ⟨_, _, _, rfl⟩ := hostBufWrite_next h
    rfl
  | wait => cases h; rfl
  | reset => cases h; rfl

theorem takeInput_keeps_params {m : Input} (h : s.takeInput m = .next t) : t.params = s.params := by
  obtain ⟨_, _, _, hm⟩ | ⟨_, hm⟩ := takeInput_cases m s
  · rw [hm] at h
    cases h
  · exact access_keeps_params (hm ▸ h)

theorem step_keeps_params (h : step s = .next t) : t.params = s.params := by
  obtain ⟨_, hs⟩ | ⟨m, rest, _, hs⟩ | ⟨_, hs⟩ := step_cases s
  · exact execute_keeps_params (hs ▸ h)
  · exact takeInput_keeps_params (s := { s with inputs := rest }) (hs ▸ h)
  · rw [hs] at h
    cases h
    rfl

/-- Settles O54, by what a step can do: execute a command, take an input, or idle. -/
theorem stepsKeepTheParameters : Obligations.StepsKeepTheParameters :=
  fun _ _ h => step_keeps_params h

end Sys2Proof.Machine

/-! Which access or command a step is, by whose move it is, and what a host access leaves: the registers first, then the
buffers (10_state.md R18, R26; 20_memory.md R38 to R44; 70_reset_and_hazards.md R130 to R134). -/

namespace Sys2Proof.Machine

variable {s : State} {m : Input} {rest : List Input}

/-! ## Whose move the step is -/

/-- The core moves next: the step executes the word in CMD. -/
theorem step_of_coreMovesNext (h : CoreMovesNext s) : step s = execute s := by
  unfold step
  rw [(turn_eq_core_iff s).mpr h]

/-- A pending input other than WAIT is the step, whatever BUSY is. -/
theorem step_of_input (hi : s.inputs = m :: rest) (hw : m ≠ .wait) :
    step s = State.takeInput m { s with inputs := rest } := by
  unfold step
  rw [turn_of_input hi hw]

theorem takeInput_of_idle (hb : s.busy = false) : s.takeInput m = s.access m := by
  obtain ⟨hbusy, _⟩ | ⟨_, h⟩ := takeInput_cases m s
  · exact absurd hb (by simp [hbusy])
  · exact h

/-- While BUSY = 0 a pending input other than WAIT is the access it names. -/
theorem step_of_idle_input (hb : s.busy = false) (hi : s.inputs = m :: rest) (hw : m ≠ .wait) :
    step s = State.access m { s with inputs := rest } :=
  (step_of_input hi hw).trans (takeInput_of_idle (s := { s with inputs := rest }) hb)

theorem readsStatus_eq_true_iff : m.readsStatus = true ↔ m = .regRead 1 := by
  cases m <;> simp [Input.readsStatus]

/-- While BUSY = 1 every host access but a read of STATUS is refused (70_reset_and_hazards.md R134; log 4). -/
theorem step_of_busy_access (hb : s.busy = true) (hi : s.inputs = m :: rest) (hw : m ≠ .wait) (hr : m ≠ .reset)
    (hs : m ≠ .regRead 1) : step s = .refused .hostAccessWhileBusy := by
  rw [step_of_input hi hw]
  obtain ⟨_, _, _, h⟩ | ⟨hb' | h | h, _⟩ := takeInput_cases m { s with inputs := rest }
  · exact h
  · exact absurd (hb.symm.trans hb') (by decide)
  · exact absurd h hr
  · exact absurd (readsStatus_eq_true_iff.mp h) hs

/-- A read of STATUS returns it, whatever BUSY is, and changes nothing of the block. -/
theorem step_of_status_read (hi : s.inputs = .regRead 1 :: rest) :
    step s = .next { s with inputs := rest, seen := s.seen ++ [.reg 1 (s.status.setWidth 32)] } := by
  rw [step_of_input hi (by decide)]
  obtain ⟨_, _, h, _⟩ | ⟨_, h⟩ := takeInput_cases (.regRead 1) { s with inputs := rest }
  · exact absurd h (by decide)
  · exact h

/-- The reset input is taken whatever BUSY is (70_reset_and_hazards.md R130). -/
theorem step_of_reset (hi : s.inputs = .reset :: rest) :
    step s = .next ({ s with inputs := rest } : State).assertReset := by
  rw [step_of_input hi (by decide)]
  obtain ⟨_, h, _⟩ | ⟨_, h⟩ := takeInput_cases .reset { s with inputs := rest }
  · exact absurd rfl h
  · exact h

theorem step_of_idle_regWrite {i v : Nat} (hb : s.busy = false) (hi : s.inputs = .regWrite i v :: rest) :
    step s = .next (State.regWrite { s with inputs := rest } i v) :=
  step_of_idle_input hb hi (by simp)

/-! ## Registers and buffers under a host access -/

/-- Indices of 13 and above select no register (20_memory.md R38). -/
theorem Reg.ofIndex_eq_none {i : Nat} (h : 13 ≤ i) : Reg.ofIndex i = none := by
  unfold Reg.ofIndex
  split <;> first | omega | rfl

/-- RO registers and indices of 13 and above ignore a write (10_state.md R26; 20_memory.md R38). -/
theorem regWrite_of_not_writable (s : State) {i : Nat} (v : Nat) (h : i ∉ [0, 4, 5, 7, 8, 9]) :
    s.regWrite i v = s := by
  have hi : i = 1 ∨ i = 2 ∨ i = 3 ∨ i = 6 ∨ i = 10 ∨ i = 11 ∨ i = 12 ∨ 13 ≤ i := by
    simp only [List.mem_cons, List.not_mem_nil, or_false, not_or] at h
    omega
  obtain rfl | rfl | rfl | rfl | rfl | rfl | rfl | hi := hi
  iterate 7 rfl
  unfold State.regWrite
  rw [Reg.ofIndex_eq_none hi]

/-- A host read of an element below capacity that holds a value returns the element. -/
theorem hostBufRead_of_some {b k : Nat} {id : BufId} {e : Elem} (hid : BufId.ofIndex b = some id)
    (hk : k < id.capacity s.params) (he : s.mem.read id k = some e) :
    s.hostBufRead b k = .next (s.observe (.elem b k e)) := by
  unfold State.hostBufRead
  simp only [hid, if_neg (Nat.not_le.mpr hk), he]

/-- A host read of an element below capacity that holds no value faults (10_state.md R28; log 5). -/
theorem hostBufRead_of_none {b k : Nat} {id : BufId} (hid : BufId.ofIndex b = some id)
    (hk : k < id.capacity s.params) (he : s.mem.read id k = none) :
    s.hostBufRead b k = .fault .hostReadNoValue := by
  unfold State.hostBufRead
  simp only [hid, if_neg (Nat.not_le.mpr hk), he]

/-- A host write of an element below capacity. -/
theorem hostBufWrite_of_lt {b k v : Nat} {id : BufId} (hid : BufId.ofIndex b = some id)
    (hk : k < id.capacity s.params) :
    s.hostBufWrite b k v = .next { s with mem := s.mem.hostWrite id k v } := by
  unfold State.hostBufWrite
  simp only [hid, if_neg (Nat.not_le.mpr hk)]

/-- The buffer ids of 20_memory.md R39. -/
theorem BufId.ofIndex_eq_some {b : Nat} {id : BufId} (h : BufId.ofIndex b = some id) :
    (b = 0 ∧ id = .txtA) ∨ (b = 1 ∧ id = .txtB) ∨ (b = 2 ∧ id = .bitsIn) ∨ (b = 3 ∧ id = .bitsOut) ∨
      (b = 4 ∧ id = .txtOut) ∨ (b = 5 ∧ id = .samples) := by
  unfold BufId.ofIndex at h
  split at h <;> cases h <;> simp

@[simp] theorem Memory.read_reset (id : BufId) (k : Nat) : Memory.reset.read id k = none := by
  cases id <;> rfl

/-- A host write of one buffer leaves the others alone. -/
theorem Memory.read_hostWrite_otherBuffer (mem : Memory) {id id' : BufId} (k v k' : Nat) (h : id' ≠ id) :
    (mem.hostWrite id k v).read id' k' = mem.read id' k' := by
  cases id <;> cases id' <;> first | rfl | exact absurd rfl h

/-- A host write of an element leaves the other elements of its buffer alone. -/
theorem Memory.read_hostWrite_otherElement (mem : Memory) (id : BufId) {k k' : Nat} (v : Nat) (h : k' ≠ k) :
    (mem.hostWrite id k v).read id k' = mem.read id k' := by
  cases id with
  | txtA => exact congrArg (Option.map Elem.char) (bufRead_bufWrite_other mem.txtA _ h)
  | txtB => exact congrArg (Option.map Elem.char) (bufRead_bufWrite_other mem.txtB _ h)
  | bitsIn => exact congrArg (Option.map Elem.bit) (bufRead_bufWrite_other mem.bitsIn _ h)
  | bitsOut => rfl
  | txtOut => rfl
  | samples => rfl

theorem Memory.read_hostWrite_other (mem : Memory) {id id' : BufId} {k k' : Nat} (v : Nat)
    (h : (id', k') ≠ (id, k)) : (mem.hostWrite id k v).read id' k' = mem.read id' k' := by
  by_cases hid : id' = id
  · subst hid
    exact mem.read_hostWrite_otherElement id' v fun hk => h (by rw [hk])
  · exact mem.read_hostWrite_otherBuffer k v k' hid

/-- A host write of a text element is read back as its low 8 bits, and one of a bit as its low bit
(20_memory.md R40). -/
theorem Memory.read_hostWrite_same (mem : Memory) (k v : Nat) :
    (mem.hostWrite .txtA k v).read .txtA k = some (.char (BitVec.ofNat 8 v)) ∧
    (mem.hostWrite .txtB k v).read .txtB k = some (.char (BitVec.ofNat 8 v)) ∧
    (mem.hostWrite .bitsIn k v).read .bitsIn k = some (.bit (v % 2 == 1)) := by
  simp [Memory.hostWrite, Memory.read, Nat.testBit_zero, beq_eq_decide]

/-! ## The host's accesses, settled -/

/-- Settles O7: the pending write is the access, and index 0 is CMD. -/
theorem writingCmdWhileIdleIssuesTheCommand : Obligations.WritingCmdWhileIdleIssuesTheCommand :=
  fun _ _ _ hb hi => step_of_idle_regWrite hb hi

/-- Settles O8: a busy step takes a read of STATUS and refuses every other access. -/
theorem onlyStatusMayBeReadWhileBusy : Obligations.OnlyStatusMayBeReadWhileBusy := by
  intro s m rest hb hi hw hr
  refine ⟨step_of_busy_access hb hi hw hr, ?_⟩
  rintro rfl
  have hbit : s.status.getLsbD 7 = true := hb
  exact ⟨step_of_status_read hi, by simp [hbit]⟩

/-- Settles O11: the busy write is refused, and the idle one is `regWrite` at its index. -/
theorem registerWriteTruncatesOrIsIgnored : Obligations.RegisterWriteTruncatesOrIsIgnored := by
  intro s i v rest hi
  refine ⟨fun hb t ht => ?_, fun hb => ?_⟩
  · rw [step_of_busy_access hb hi (by simp) (by simp) (by simp)] at ht
    cases ht
  · rw [step_of_idle_regWrite hb hi]
    refine ⟨?_, ?_, ?_, ?_, ?_, ?_, fun h => by rw [regWrite_of_not_writable _ v h]⟩
    · rintro rfl
      exact ⟨_, rfl, BitVec.toNat_ofNat v 16⟩
    all_goals
      rintro rfl
      rfl

/-- Settles O12: the write is `Memory.hostWrite` of the buffer the id names, which is read back element by element. -/
theorem bufferWriteSetsOneElementOrNothing : Obligations.BufferWriteSetsOneElementOrNothing := by
  intro s b k v id rest hb hi hid hk
  have hstep : step s = .next { s with inputs := rest, mem := s.mem.hostWrite id k v } :=
    (step_of_idle_input hb hi (by simp)).trans (hostBufWrite_of_lt (s := { s with inputs := rest }) hid hk)
  refine ⟨s.mem.hostWrite id k v, hstep, fun _ _ h => s.mem.read_hostWrite_other v h, ?_⟩
  obtain ⟨hA, hB, hBits⟩ := s.mem.read_hostWrite_same k v
  obtain ⟨rfl, rfl⟩ | ⟨rfl, rfl⟩ | ⟨rfl, rfl⟩ | ⟨rfl, rfl⟩ | ⟨rfl, rfl⟩ | ⟨rfl, rfl⟩ := BufId.ofIndex_eq_some hid
  · exact ⟨fun _ => hA, by omega, by omega⟩
  · exact ⟨fun _ => hB, by omega, by omega⟩
  · exact ⟨by omega, fun _ => hBits, by omega⟩
  · exact ⟨by omega, by omega, fun _ => rfl⟩
  · exact ⟨by omega, by omega, fun _ => rfl⟩
  · exact ⟨by omega, by omega, fun _ => rfl⟩

/-- Settles O13: the read is `Memory.read` of the buffer the id names. -/
theorem bufferReadReturnsTheElementOrFaults : Obligations.BufferReadReturnsTheElementOrFaults := by
  intro s b k id rest hb hi hid hk
  have hstep : step s = State.hostBufRead b k { s with inputs := rest } := step_of_idle_input hb hi (by simp)
  rw [hstep]
  exact ⟨fun _ he => hostBufRead_of_some (s := { s with inputs := rest }) hid hk he,
    fun he => hostBufRead_of_none (s := { s with inputs := rest }) hid hk he⟩

/-- Settles O15: the reset input is always taken, and leaves the reset state of the block's own parameters. -/
theorem resetInputRestoresTheResetState : Obligations.ResetInputRestoresTheResetState := by
  intro s rest hi
  refine ⟨_, step_of_reset hi, ?_⟩
  exact ⟨rfl, rfl, rfl, rfl, rfl, rfl, rfl, rfl, rfl, rfl, rfl, rfl, rfl, Memory.read_reset, rfl, rfl, rfl⟩

/-- Settles O16: R36's table, row by row. -/
theorem resetStateIsTheTabulatedOne : Obligations.ResetStateIsTheTabulatedOne :=
  ⟨rfl, rfl, by decide, by decide, by decide, rfl, rfl, rfl, rfl, rfl, rfl, rfl, rfl, rfl, rfl, rfl, Memory.read_reset⟩

end Sys2Proof.Machine

/-! Each command writes only its own write set (10_state.md R34). -/

namespace Sys2Proof.Machine

variable {s t : State}

/-- A word that decodes to no command changes STATUS and the error record alone (60_exceptions.md R117). -/
theorem execute_of_illegal (h : decodeCmd s.cmd = none) : execute s = .next s.completeIllegal := by
  unfold execute
  rw [h]

/-- Each command's write set, as its meaning says what it can do. -/
theorem exec_writesOnly {i : Instr} (h : exec i s = .next t) : WritesOnly i s t := by
  cases i with
  | resolve sel =>
    have hr : execResolve sel s = .next t := h
    obtain ⟨_, hn⟩ | ⟨_, _, hn⟩ := execResolve_cases sel s
    all_goals
      rw [hn] at hr
      cases hr
      rfl
  | encode =>
    obtain ⟨_, _, _, _, rfl, _⟩ := execEncode_next h
    rfl
  | decode =>
    obtain ⟨_, _, _, rfl, _⟩ := execDecode_next h
    rfl
  | synth sel rev =>
    obtain ⟨_, rfl⟩ | ⟨_, _, _, _, rfl, _⟩ := execSynth_next h
    · rfl
    · rfl

/-- Settles O50, from what each meaning can do and from the completion of an illegal word. -/
theorem commandsWriteOnlyTheirWriteSets : Obligations.CommandsWriteOnlyTheirWriteSets := by
  refine ⟨fun _ _ _ h => exec_writesOnly h, fun s t hc hd ht => ?_⟩
  rw [step_of_coreMovesNext hc, execute_of_illegal hd] at ht
  cases ht
  rfl

end Sys2Proof.Machine

/-! The internal working state never shows (10_state.md R14, R32): a command answers the same, but for its working state,
as it does from the state with the working state erased. The one place where a command looks at the working state is
SYNTH's second pass, which reads AMP and PASS_BITS, and the first pass has set both. -/

namespace Sys2Proof.Machine

section Visible

variable (s : State)

@[simp] theorem visible_cmd : s.visible.cmd = s.cmd := rfl
@[simp] theorem visible_pad : s.visible.pad = s.pad := rfl
@[simp] theorem visible_txtALen : s.visible.txtALen = s.txtALen := rfl
@[simp] theorem visible_bitsInLen : s.visible.bitsInLen = s.bitsInLen := rfl
@[simp] theorem visible_mem : s.visible.mem = s.mem := rfl
@[simp] theorem visible_params : s.visible.params = s.params := rfl
@[simp] theorem visible_busy : s.visible.busy = s.busy := rfl
@[simp] theorem visible_turn : s.visible.turn = s.turn := rfl
@[simp] theorem visible_textA : s.visible.textA = s.textA := rfl
@[simp] theorem visible_inputBits : s.visible.inputBits = s.inputBits := rfl
@[simp] theorem visible_synthInputTooLong : s.visible.synthInputTooLong = s.synthInputTooLong := rfl

@[simp] theorem visible_regRead (i : Nat) : s.visible.regRead i = s.regRead i := by
  unfold State.regRead
  cases Reg.ofIndex i with
  | none => rfl
  | some r => cases r <;> rfl

end Visible

/-- A meaning whose outcome is the same, but for the working state, from the state with the working state erased. -/
def WorkBlind (f : State → Host.Outcome State Fault Refusal) : Prop :=
  ∀ s : State, visibleOutcome (f s) = visibleOutcome (f s.visible)

theorem visibleOutcome_next_eq {s t : State} (h : s.visible = t.visible) :
    visibleOutcome (.next s) = visibleOutcome (.next t) :=
  congrArg Host.Outcome.next h

/-! ## RESOLVE, ENCODE and DECODE -/

theorem execResolve_workBlind (sel : BitVec 2) : WorkBlind (execResolve sel) := by
  intro s
  unfold execResolve
  cases trackOf sel with
  | none => rfl
  | some t => rfl

/-- ENCODE sets LRC_ACC, PAR_ACC and K and reads no working state. -/
theorem encodeTextA_visible (text : List Byte) (s : State) :
    (s.encodeTextA text).visible = (s.visible.encodeTextA text).visible := by
  unfold State.encodeTextA State.selectProfile
  rw [visible_pad, visible_params]
  cases autoProfile text <;> cases encodeText text s.pad.toNat with
  | error c => rfl
  | ok r => dsimp only; split <;> rfl

theorem execEncode_workBlind : WorkBlind execEncode := by
  intro s
  unfold execEncode
  rw [visible_txtALen, visible_params, visible_textA]
  split
  · rfl
  · cases s.textA with
    | none => rfl
    | some text => exact visibleOutcome_next_eq (encodeTextA_visible text s)

/-- DECODE sets START_POS, END_POS, J, LRC_ACC and PAR_ACC and reads no working state. -/
theorem decodeInput_visible (b : List Bit) (s : State) :
    (s.decodeInput b).visible = (s.visible.decodeInput b).visible := by
  unfold State.decodeInput
  rw [visible_params]
  cases decodeBits b with
  | error c => rfl
  | ok out => dsimp only; split <;> rfl

theorem execDecode_workBlind : WorkBlind execDecode := by
  intro s
  unfold execDecode
  rw [visible_bitsInLen, visible_params, visible_inputBits]
  split
  · rfl
  · cases s.inputBits with
    | none => rfl
    | some b => exact visibleOutcome_next_eq (decodeInput_visible b s)

/-! ## SYNTH -/

/-- Two states that a second pass cannot tell apart: they differ in the working state alone, and agree on AMP and
PASS_BITS. -/
structure SamePass (s t : State) : Prop where
  visible : s.visible = t.visible
  amp : s.work.amp = t.work.amp
  passBits : s.work.passBits = t.work.passBits

section SamePass

variable {s t : State}

theorem synthRaise_visible (h : s.visible = t.visible) (src : Bool) :
    (s.synthRaise src).visible = (t.synthRaise src).visible :=
  (congrArg (fun u : State => (u.synthRaise src).visible) h :)

theorem raiseKeep_done_visible (h : s.visible = t.visible) (out : List Sample) (c : Completion) :
    ((s.setSeq .done).raiseKeep out c).visible = ((t.setSeq .done).raiseKeep out c).visible :=
  (congrArg (fun u : State => ((u.setSeq .done).raiseKeep out c).visible) h :)

theorem synthFinish_visible (h : s.visible = t.visible) (out : List Sample) :
    (s.synthFinish out).visible = (t.synthFinish out).visible := by
  have hcap : s.params.samplesCap = t.params.samplesCap := (congrArg (·.params.samplesCap) h :)
  unfold State.synthFinish
  rw [hcap]
  split
  · exact synthRaise_visible h false
  · exact (congrArg (fun u : State => ((u.setSeq .done).storeSamples out).succeed.visible) h :)

theorem SamePass.runPass_fst (h : SamePass s t) (bits : List Bit) :
    (s.runPass bits).1.visible = (t.runPass bits).1.visible := h.visible

theorem SamePass.runPass_snd (h : SamePass s t) (bits : List Bit) : (s.runPass bits).2 = (t.runPass bits).2 := by
  have hspb : s.spb = t.spb := (congrArg State.spb h.visible :)
  rw [State.runPass_samples, State.runPass_samples, hspb, h.amp]

theorem SamePass.synthReverse (h : SamePass s t) (out : List Sample) :
    (s.synthReverse out).visible = (t.synthReverse out).visible := by
  unfold State.synthReverse
  rw [h.passBits]
  dsimp only
  rw [h.runPass_snd]
  exact synthFinish_visible (h.runPass_fst _) _

@[simp] theorem encodeWork_passBits (text : List Byte) (w : Working) :
    (encodeWork text w).passBits = w.passBits := by
  unfold encodeWork
  split <;> rfl

/-- Encoding the second track's text leaves AMP and PASS_BITS alone. -/
theorem SamePass.encodeWork (h : SamePass s t) (text : List Byte) :
    SamePass { s with work := encodeWork text s.work } { t with work := encodeWork text t.work } :=
  ⟨h.visible, by simp [h.amp], by simp [h.passBits]⟩

theorem SamePass.synthSecondary (h : SamePass s t) (out : List Sample) (text : List Byte) :
    (s.synthSecondary out text).visible = (t.synthSecondary out text).visible := by
  have hcap : s.params.bitsCap = t.params.bitsCap := (congrArg (·.params.bitsCap) h.visible :)
  have hrev : s.params.reverseSecondary = t.params.reverseSecondary :=
    (congrArg (·.params.reverseSecondary) h.visible :)
  have hwork := h.encodeWork text
  unfold State.synthSecondary
  cases encodeText text 0 with
  | error c => exact raiseKeep_done_visible hwork.visible out _
  | ok r =>
    dsimp only
    rw [hcap, hrev]
    split
    · exact synthRaise_visible hwork.visible true
    · rw [hwork.runPass_snd]
      exact synthFinish_visible (hwork.runPass_fst _) _

theorem SamePass.synthMaybeSecondary (h : SamePass s t) (tr : Track) (rev : Bool) (out : List Sample) :
    visibleOutcome (s.synthMaybeSecondary tr rev out) = visibleOutcome (t.synthMaybeSecondary tr rev out) := by
  have hsecondary : s.secondaryTest tr = t.secondaryTest tr := (congrArg (State.secondaryTest tr) h.visible :)
  have hstop : s.stopTest tr rev = t.stopTest tr rev := (congrArg (State.stopTest tr rev) h.visible :)
  have htextB : s.textB = t.textB := (congrArg State.textB h.visible :)
  unfold State.synthMaybeSecondary
  rw [hsecondary, hstop, htextB]
  split
  · rfl
  · cases t.textB with
    | none => rfl
    | some text => exact visibleOutcome_next_eq (h.synthSecondary out text)
  · split
    · rfl
    · exact visibleOutcome_next_eq (synthFinish_visible h.visible out)
    · exact visibleOutcome_next_eq (h.synthReverse out)

end SamePass

/-- The first pass sets AMP and PASS_BITS, whatever they held. -/
theorem samePass_firstPass (s : State) (bits : List Bit) :
    SamePass ((s.beginSynth.runPass bits).1.setSeq .maybeEmitSecondary)
      ((s.visible.beginSynth.runPass bits).1.setSeq .maybeEmitSecondary) :=
  ⟨rfl, rfl, rfl⟩

theorem synthPrimary_workBlind (tr : Track) (rev : Bool) (bits : List Bit) :
    WorkBlind (State.synthPrimary tr rev bits) := by
  intro s
  unfold State.synthPrimary
  have hout : (s.visible.beginSynth.runPass bits).2 = (s.beginSynth.runPass bits).2 := rfl
  dsimp only
  rw [hout, visible_params]
  split
  · rfl
  · exact (samePass_firstPass s bits).synthMaybeSecondary tr rev _

theorem execSynth_workBlind (sel : BitVec 2) (rev : Bool) : WorkBlind (execSynth sel rev) := by
  intro s
  unfold execSynth
  rw [visible_synthInputTooLong, visible_inputBits]
  cases trackOf sel with
  | none => rfl
  | some tr =>
    dsimp only
    split
    · rfl
    · cases s.inputBits with
      | none => rfl
      | some bits => exact synthPrimary_workBlind tr rev bits s

/-! ## The step -/

theorem exec_workBlind (i : Instr) : WorkBlind (exec i) := by
  cases i with
  | resolve sel => exact execResolve_workBlind sel
  | encode => exact execEncode_workBlind
  | decode => exact execDecode_workBlind
  | synth sel rev => exact execSynth_workBlind sel rev

theorem execute_workBlind : WorkBlind execute := by
  intro s
  unfold execute
  rw [visible_cmd]
  cases decodeCmd s.cmd with
  | none => rfl
  | some i => exact exec_workBlind i s

theorem regWrite_visible (s : State) (i v : Nat) : (s.regWrite i v).visible = (s.visible.regWrite i v).visible := by
  unfold State.regWrite
  cases Reg.ofIndex i with
  | none => rfl
  | some r => cases r <;> rfl

theorem hostBufRead_workBlind (b k : Nat) : WorkBlind (State.hostBufRead b k) := by
  intro s
  unfold State.hostBufRead
  cases BufId.ofIndex b with
  | none => rfl
  | some id =>
    dsimp only
    rw [visible_params, visible_mem]
    split
    · rfl
    · cases s.mem.read id k <;> rfl

theorem hostBufWrite_workBlind (b k v : Nat) : WorkBlind (State.hostBufWrite b k v) := by
  intro s
  unfold State.hostBufWrite
  cases BufId.ofIndex b with
  | none => rfl
  | some id =>
    dsimp only
    rw [visible_params, visible_mem]
    split <;> rfl

theorem access_workBlind (m : Input) : WorkBlind (State.access m) := by
  intro s
  cases m with
  | regRead i => exact visibleOutcome_next_eq (by rw [visible_regRead]; rfl)
  | regWrite i v => exact visibleOutcome_next_eq (regWrite_visible s i v)
  | bufRead b k => exact hostBufRead_workBlind b k s
  | bufWrite b k v => exact hostBufWrite_workBlind b k v s
  | wait => rfl
  | reset => rfl

theorem takeInput_workBlind (m : Input) : WorkBlind (State.takeInput m) := by
  intro s
  unfold State.takeInput
  rw [visible_busy]
  split
  · rfl
  · exact access_workBlind m s

theorem step_workBlind : WorkBlind step := by
  intro s
  unfold step
  rw [visible_turn]
  cases s.turn with
  | core => exact execute_workBlind s
  | input m rest => exact takeInput_workBlind m { s with inputs := rest }
  | idle => rfl

/-- Settles O53: both steps answer as the step from the state with the working state erased. -/
theorem workingStateNeverShows : Obligations.WorkingStateNeverShows :=
  fun s w => (step_workBlind { s with work := w }).trans (step_workBlind s).symm

end Sys2Proof.Machine

/-! The invariant (10_state.md R17, R23, R27, R28, R31, R32; 60_exceptions.md R113, R114): one rule for each shared
operation that a command or a host access is made of, then the commands, the accesses and the step. -/

namespace Sys2Proof.Machine

/-! ## What a completion leaves, and what a decoded text holds -/

/-- The codes a command can end with are 0 to 8 (60_exceptions.md R113). -/
theorem Code.toBits_le_eight {code : Code} (h : code ≠ .noResult) : code.toBits.toNat ≤ 8 := by
  revert h
  cases code <;> decide

/-- A completion that fits its code leaves a legal STATUS. -/
theorem Completion.Fits.statusLegal {c : Completion} (h : c.Fits) (s : State) : StatusLegal (s.complete c) := by
  refine ⟨statusReserved_completedStatus c, .inl ?_⟩
  rw [State.complete_status, statusCode_completedStatus]
  exact Code.toBits_le_eight h.notReset

/-- A completion that fits its code leaves a record that fits it (60_exceptions.md R114). -/
theorem Completion.Fits.recordLegal {c : Completion} (h : c.Fits) (s : State) : RecordLegal (s.complete c) := by
  obtain ⟨code, index, char, src⟩ := c
  obtain ⟨hcode, hindex, hchar, hsrc⟩ := h
  unfold RecordLegal
  simp only [State.complete_status, State.complete_errIndex, State.complete_errChar, statusCode_completedStatus,
    statusErrSrc_completedStatus]
  cases code <;> simp_all [Code.toBits]

/-- A frame decodes to a character in 32..95, since it has six data bits (42_decode.md R87, R95). -/
theorem frameChar_bounds (f : List Bit) : 32 ≤ (frameChar f).toNat ∧ (frameChar f).toNat ≤ 95 := by
  have hv : valueLsbFirst (f.take 6) < 2 ^ 6 :=
    (valueLsbFirst_lt _).trans_le (Nat.pow_le_pow_right (by decide) (List.length_take_le 6 f))
  have hc : (frameChar f).toNat = 32 + valueLsbFirst (f.take 6) := by
    rw [frameChar, BitVec.toNat_ofNat]
    omega
  omega

theorem walkFrames_bounds (b lrc : List Bit) (par last j n : Nat) :
    ∀ c ∈ (walkFrames b lrc par last j n).out, 32 ≤ c.toNat ∧ c.toNat ≤ 95 := by
  induction n generalizing lrc par last j with
  | zero => simp [walkFrames]
  | succ n ih =>
    unfold walkFrames
    dsimp only
    split
    · rintro c (_ | ⟨_, hc⟩)
      · exact frameChar_bounds _
      · exact ih _ _ _ _ c hc
    · simp

/-- An accepted stream's text is what the frame walk gave (42_decode.md R92). -/
theorem decodeBits_ok {b : List Bit} {out : List Byte} (h : decodeBits b = .ok out) :
    ∃ start stop, findStart b = some start ∧ findEnd b start = some stop ∧ out = (decodeLoop b start stop).out := by
  unfold decodeBits at h
  cases hstart : findStart b with
  | none => rw [hstart] at h; cases h
  | some start =>
    rw [hstart] at h
    dsimp only at h
    cases hstop : findEnd b start with
    | none => rw [hstop] at h; cases h
    | some stop =>
      rw [hstop] at h
      dsimp only at h
      split at h
      · cases h
      · split_ifs at h
        cases h
        exact ⟨start, stop, rfl, hstop, rfl⟩

theorem decodeBits_bounds {b : List Bit} {out : List Byte} (h : decodeBits b = .ok out) :
    ∀ c ∈ out, 32 ≤ c.toNat ∧ c.toNat ≤ 95 := by
  obtain ⟨start, stop, _, _, rfl⟩ := decodeBits_ok h
  exact walkFrames_bounds _ _ _ _ _ _

/-! ## The shared operations -/

/-- A stored sequence that fits a 32-bit length has a value in exactly the elements below that length. -/
theorem bufRead_bufOfList_isSome {α : Type} {vs : List α} (h : vs.length < 2 ^ 32) (k : Nat) :
    (bufRead (bufOfList vs) k).isSome = true ↔ k < (BitVec.ofNat 32 vs.length).toNat := by
  rw [bufOfList_holdsExactly vs k, BitVec.toNat_ofNat, Nat.mod_eq_of_lt h]
  simp

theorem mem_of_bufRead_bufOfList {α : Type} {vs : List α} {k : Nat} {v : α}
    (h : bufRead (bufOfList vs) k = some v) : v ∈ vs :=
  List.mem_of_getElem? ((bufOfList_holdsExactly vs k).symm.trans h)

namespace Inv

variable {s : State}

theorem complete (h : Inv s) {c : Completion} (hc : c.Fits) : Inv (s.complete c) :=
  { h with status := hc.statusLegal s, record := hc.recordLegal s }

theorem withWork (h : Inv s) {w : Working} (hseq : w.seq = .done) (hamp : PeakAmp w) :
    Inv { s with work := w } :=
  { h with work := ⟨hseq, hamp⟩ }

theorem withProf (h : Inv s) {prof : Word32}
    (hp : prof = s.prof ∨ prof = packProf profile1 ∨ prof = packProf profile23) : Inv { s with prof := prof } := by
  obtain rfl | rfl | rfl := hp
  · exact h
  · exact { h with prof := .inr (.inl rfl) }
  · exact { h with prof := .inr (.inr rfl) }

theorem storeBitsOut (h : Inv s) {bits : List Bit} (hl : bits.length ≤ s.params.bitsCap) :
    Inv (s.storeBitsOut bits) :=
  { h with
    memory := storeBitsOut_wf h.memory hl
    outputs := ⟨bufRead_bufOfList_isSome (hl.trans_lt (params_ok_bounds h.params).2.1), h.outputs.2⟩ }

theorem storeTxtOut (h : Inv s) {text : List Byte} (hl : text.length ≤ s.params.textCap)
    (ht : ∀ c ∈ text, 32 ≤ c.toNat ∧ c.toNat ≤ 95) : Inv (s.storeTxtOut text) :=
  { h with
    memory := storeTxtOut_wf h.memory hl
    outputs := ⟨h.outputs.1, bufRead_bufOfList_isSome (hl.trans_lt (params_ok_bounds h.params).1), h.outputs.2.2⟩
    text := fun _ c hc => ht c (mem_of_bufRead_bufOfList hc) }

theorem storeSamples (h : Inv s) {out : List Sample} (hl : out.length ≤ s.params.samplesCap)
    (ho : PeakSamples out) : Inv (s.storeSamples out) :=
  { h with
    memory := storeSamples_wf h.memory hl
    outputs := ⟨h.outputs.1, h.outputs.2.1, bufRead_bufOfList_isSome (hl.trans_lt (params_ok_bounds h.params).2.2)⟩
    samples := fun _ v hv => ho v (mem_of_bufRead_bufOfList hv) }

/-- Pending inputs and past readings are no part of the block. -/
theorem withHost (h : Inv s) (inputs : List Input) (seen : List Reading) :
    Inv { s with inputs := inputs, seen := seen } :=
  { h with }

/-- Issue sets BUSY and keeps every other bit of STATUS (10_state.md R18). -/
theorem withBusyStatus (h : Inv s) : Inv { s with status := withBusy s.status } := by
  obtain ⟨hreserved, hcode⟩ := h.status
  obtain ⟨hindex, hchar, hsrc⟩ := h.record
  exact
    { h with
      status := ⟨(statusReserved_withBusy _).trans hreserved, by simpa using hcode⟩
      record := ⟨by simpa using hindex, by simpa using hchar, by simpa using hsrc⟩ }

theorem resetWith {P : Config.Params} (hP : P.ok = true) : Inv (State.resetWith P) where
  params := hP
  memory := Memory.reset_wf P
  status := ⟨(by decide : statusReserved 0x0F#8 = 0#2), .inr (by decide : statusCode 0x0F#8 = 15#4)⟩
  prof := .inl rfl
  outputs := by
    refine ⟨fun k => ?_, fun k => ?_, fun k => ?_⟩
    all_goals simp [State.resetWith, Memory.reset]
  samples := fun _ _ hv => nomatch hv
  text := fun _ _ hc => nomatch hc
  record := ⟨fun _ => rfl, fun _ => rfl, fun _ => (by decide : statusErrSrc 0x0F#8 = false)⟩
  work := ⟨rfl, .inl rfl⟩

end Inv

/-! ## The commands -/

section Commands

variable {s t : State}

theorem execResolve_keeps_inv {sel : BitVec 2} (hi : Inv s) (h : execResolve sel s = .next t) : Inv t := by
  obtain ⟨_, hr⟩ | ⟨tr, _, hr⟩ := execResolve_cases sel s
  · rw [hr] at h
    cases h
    exact hi.complete Completion.fits_illegal
  · rw [hr] at h
    cases h
    refine Inv.complete (s := s.setProf (profile tr)) (hi.withProf ?_) Completion.fits_success
    cases tr <;> simp [profile]

theorem execEncode_keeps_inv (hi : Inv s) (h : execEncode s = .next t) : Inv t := by
  obtain ⟨w, prof, bits, c, rfl, hlen, _, hc, hprof, hamp, hseq⟩ := execEncode_next h
  obtain ⟨hdone, hpeak⟩ := hi.work
  have hw : Inv { s with work := w } := hi.withWork (hseq.trans hdone) (by rwa [PeakAmp, hamp])
  exact ((hw.withProf hprof).storeBitsOut hlen).complete hc

theorem execDecode_keeps_inv (hi : Inv s) (h : execDecode s = .next t) : Inv t := by
  obtain ⟨w, out, c, rfl, hlen, hc, hout, hamp, hseq⟩ := execDecode_next h
  obtain ⟨hdone, hpeak⟩ := hi.work
  have hw : Inv { s with work := w } := hi.withWork (hseq.trans hdone) (by rwa [PeakAmp, hamp])
  refine (hw.storeTxtOut hlen ?_).complete hc
  obtain ⟨_, rfl⟩ | ⟨_, b, _, hb⟩ := hout
  · simp
  · exact decodeBits_bounds hb

theorem execSynth_keeps_inv {sel : BitVec 2} {rev : Bool} (hi : Inv s) (h : execSynth sel rev s = .next t) :
    Inv t := by
  obtain ⟨_, rfl⟩ | ⟨_, w, out, c, rfl, hlen, hout, hc, _, hwork⟩ := execSynth_next h
  · exact hi.complete Completion.fits_illegal
  · have hw : Inv { s with work := w } := by
      obtain rfl | ⟨hdone, hpeak⟩ := hwork
      · exact hi
      · exact hi.withWork hdone hpeak
    exact (hw.storeSamples hlen hout).complete hc

theorem exec_keeps_inv {i : Instr} (hi : Inv s) (h : exec i s = .next t) : Inv t := by
  cases i with
  | resolve sel => exact execResolve_keeps_inv hi h
  | encode => exact execEncode_keeps_inv hi h
  | decode => exact execDecode_keeps_inv hi h
  | synth sel rev => exact execSynth_keeps_inv hi h

theorem execute_keeps_inv (hi : Inv s) (h : execute s = .next t) : Inv t := by
  cases hd : decodeCmd s.cmd with
  | none =>
    rw [execute_of_illegal hd] at h
    cases h
    exact hi.complete Completion.fits_illegal
  | some i =>
    unfold execute at h
    rw [hd] at h
    exact exec_keeps_inv hi h

/-! ## The host's accesses and the step -/

theorem regWrite_keeps_inv (hi : Inv s) (i v : Nat) : Inv (s.regWrite i v) := by
  obtain ⟨_, st, _, _, _, _, _, hw, hst⟩ := regWrite_frame s i v
  rw [hw]
  obtain rfl | rfl := hst
  · exact { hi with }
  · exact { hi.withBusyStatus with }

/-- A host write touches no output buffer (20_memory.md R40). -/
theorem hostBufWrite_keeps_inv {b k v : Nat} (hi : Inv s) (h : s.hostBufWrite b k v = .next t) : Inv t := by
  obtain ⟨id, _, hk, rfl⟩ := hostBufWrite_next h
  have hmem := Memory.hostWrite_wf v hi.memory hk
  cases id <;> exact { hi with memory := hmem }

theorem access_keeps_inv {m : Input} (hi : Inv s) (h : s.access m = .next t) : Inv t := by
  cases m with
  | regRead i => cases h; exact hi.withHost _ _
  | regWrite i v => cases h; exact regWrite_keeps_inv hi i v
  | bufRead b k =>
    obtain ⟨_, _, _, _, _, rfl⟩ := hostBufRead_next h
    exact hi.withHost _ _
  | bufWrite b k v => exact hostBufWrite_keeps_inv hi h
  | wait => cases h; exact hi.withHost _ _
  | reset => cases h; exact (Inv.resetWith hi.params).withHost _ _

theorem takeInput_keeps_inv {m : Input} (hi : Inv s) (h : s.takeInput m = .next t) : Inv t := by
  obtain ⟨_, _, _, hm⟩ | ⟨_, hm⟩ := takeInput_cases m s
  · rw [hm] at h
    cases h
  · exact access_keeps_inv hi (hm ▸ h)

theorem step_keeps_inv (hi : Inv s) (h : step s = .next t) : Inv t := by
  obtain ⟨_, hs⟩ | ⟨m, rest, _, hs⟩ | ⟨_, hs⟩ := step_cases s
  · exact execute_keeps_inv hi (hs ▸ h)
  · exact takeInput_keeps_inv (hi.withHost rest s.seen) (hs ▸ h)
  · rw [hs] at h
    cases h
    exact hi

end Commands

/-- Settles O55: the reset state of parameters in range meets the invariant. -/
theorem resetMeetsTheInvariant : Obligations.ResetMeetsTheInvariant :=
  Inv.resetWith (by decide)

/-- Settles O56, by what a step can do: execute a command, take an input, or idle. -/
theorem everyStepKeepsTheInvariant : Obligations.EveryStepKeepsTheInvariant :=
  fun _ _ hi h => step_keeps_inv hi h

end Sys2Proof.Machine

/-! What a read of an idle block's register returns, which buffer accesses no element answers, and on which unwritten
elements a command faults (20_memory.md R38 to R46). -/

namespace Sys2Proof.Machine

/-! ## Register reads -/

section RegisterReads

variable {s : State} {m : Input} {rest : List Input}

/-- While BUSY = 0 the pending input is next, WAIT too (30_encoding.md R62). -/
theorem turn_of_idle_input (hb : s.busy = false) (hi : s.inputs = m :: rest) : s.turn = .input m rest := by
  unfold State.turn
  rw [hi, hb]
  cases m <;> rfl

/-- WAIT while BUSY = 0 is the poll that reads BUSY = 0 (30_encoding.md R62; log 10). -/
theorem step_of_idle_wait (hb : s.busy = false) (hi : s.inputs = .wait :: rest) :
    step s = .next { s with inputs := rest, seen := s.seen ++ [.reg 1 (s.status.setWidth 32)] } := by
  unfold step
  rw [turn_of_idle_input hb hi]
  exact takeInput_of_idle (s := { s with inputs := rest }) hb

theorem step_of_idle_regRead {i : Nat} (hb : s.busy = false) (hi : s.inputs = .regRead i :: rest) :
    step s = .next { s with inputs := rest, seen := s.seen ++ [.reg i (s.regRead i)] } :=
  step_of_idle_input hb hi (by simp)

/-- Indices of 13 and above read 0 (20_memory.md R38). -/
theorem regRead_of_ge (s : State) {i : Nat} (h : 13 ≤ i) : s.regRead i = 0#32 := by
  unfold State.regRead
  rw [Reg.ofIndex_eq_none h]
  rfl

end RegisterReads

/-- Settles O10: WAIT is a read of STATUS, and a register read is `regRead` at its index. -/
theorem registerReadReturnsTheRegister : Obligations.RegisterReadReturnsTheRegister := by
  refine ⟨fun s rest hb hi => step_of_idle_wait hb hi, fun s i rest hb hi =>
    ⟨s.regRead i, step_of_idle_regRead hb hi, ?cmd, ?status, ?errIndex, ?errChar, ?pad, ?spb, ?prof, ?txtALen,
      ?txtBLen, ?bitsInLen, ?bitsOutLen, ?txtOutLen, ?samplesLen, regRead_of_ge s⟩⟩
  all_goals rintro rfl
  case cmd | status | errChar | pad | spb => exact BitVec.toNat_setWidth_of_le (by decide)
  case errIndex | prof | txtALen | txtBLen | bitsInLen | bitsOutLen | txtOutLen | samplesLen => rfl

/-! ## Buffer accesses that no element answers -/

/-- No buffer has an element `k` under the id `b` (20_memory.md R39, R43). -/
def PastCapacity (P : Config.Params) (b k : Nat) : Prop :=
  6 ≤ b ∨ ∃ id, BufId.ofIndex b = some id ∧ id.capacity P ≤ k

/-- Ids of 6 and above select no buffer (20_memory.md R39). -/
theorem BufId.ofIndex_eq_none {b : Nat} (h : 6 ≤ b) : BufId.ofIndex b = none := by
  unfold BufId.ofIndex
  split <;> first | omega | rfl

/-- A host read past capacity or of no buffer faults (20_memory.md R43). -/
theorem hostBufRead_of_pastCapacity {s : State} {b k : Nat} (h : PastCapacity s.params b k) :
    s.hostBufRead b k = .fault .hostPastCapacity := by
  unfold State.hostBufRead
  obtain hb | ⟨id, hid, hk⟩ := h
  · rw [BufId.ofIndex_eq_none hb]
  · simp only [hid, if_pos hk]

/-- A host write past capacity or to no buffer faults, whatever the buffer's access (20_memory.md R43; log 9). -/
theorem hostBufWrite_of_pastCapacity {s : State} {b k : Nat} (v : Nat) (h : PastCapacity s.params b k) :
    s.hostBufWrite b k v = .fault .hostPastCapacity := by
  unfold State.hostBufWrite
  obtain hb | ⟨id, hid, hk⟩ := h
  · rw [BufId.ofIndex_eq_none hb]
  · simp only [hid, if_pos hk]

/-- Settles O14: the pending access is `hostBufRead` or `hostBufWrite`, and both look at the capacity first. -/
theorem bufferAccessPastCapacityFaults : Obligations.BufferAccessPastCapacityFaults := by
  intro s b k v rest hb hi hpast
  obtain hi | hi := hi
  · exact (step_of_idle_input hb hi (by simp)).trans
      (hostBufRead_of_pastCapacity (s := { s with inputs := rest }) hpast)
  · exact (step_of_idle_input hb hi (by simp)).trans
      (hostBufWrite_of_pastCapacity (s := { s with inputs := rest }) v hpast)

/-! ## Unwritten inputs of a command -/

/-- A command's outcome is the fault of an unwritten input element where `P` holds, and a next state everywhere else
(20_memory.md R46). -/
structure FaultsExactlyWhen (P : Prop) (o : Host.Outcome State Fault Refusal) : Prop where
  fault : P → o = .fault .commandInputNoValue
  next : ¬P → ∃ t, o = .next t

namespace FaultsExactlyWhen

variable {P Q : Prop} {o : Host.Outcome State Fault Refusal}

theorem of_next {t : State} (h : ¬P) : FaultsExactlyWhen P (.next t) :=
  ⟨fun hP => absurd hP h, fun _ => ⟨t, rfl⟩⟩

theorem of_fault (h : P) : FaultsExactlyWhen P (.fault .commandInputNoValue) :=
  ⟨fun _ => rfl, fun hP => absurd h hP⟩

theorem congr (h : FaultsExactlyWhen P o) (hPQ : P ↔ Q) : FaultsExactlyWhen Q o :=
  ⟨fun hQ => h.fault (hPQ.mpr hQ), fun hQ => h.next fun hP => hQ (hPQ.mp hP)⟩

theorem eq_fault_iff (h : FaultsExactlyWhen P o) (f : Fault) : o = .fault f ↔ f = .commandInputNoValue ∧ P := by
  by_cases hP : P
  · rw [h.fault hP]
    simp [hP, eq_comm]
  · obtain ⟨t, ht⟩ := h.next hP
    simp [ht, hP]

theorem ne_refused (h : FaultsExactlyWhen P o) (r : Refusal) : o ≠ .refused r := by
  by_cases hP : P
  · simp [h.fault hP]
  · obtain ⟨t, ht⟩ := h.next hP
    simp [ht]

/-- ENCODE and DECODE alike: a length above capacity ends the command before it reads its input (41_encode.md R80;
42_decode.md R93). -/
theorem of_checkedRead {α : Type} (len cap : Nat) (input : Option α) (tooLong : State) (answer : α → State) :
    FaultsExactlyWhen (len ≤ cap ∧ input = none)
      (if len > cap then .next tooLong
        else input.elim (.fault .commandInputNoValue) fun x => .next (answer x)) := by
  split
  case isTrue hlong => exact .of_next fun ⟨hlen, _⟩ => absurd hlen (Nat.not_le.mpr hlong)
  case isFalse hlen =>
    cases input with
    | none => exact .of_fault ⟨Nat.not_lt.mp hlen, rfl⟩
    | some x => exact .of_next (by simp)

end FaultsExactlyWhen

theorem textA_eq_none_iff {s : State} : s.textA = none ↔ Unwritten s.mem.txtA s.txtALen.toNat := bufPrefix_eq_none

theorem textB_eq_none_iff {s : State} : s.textB = none ↔ Unwritten s.mem.txtB s.txtBLen.toNat := bufPrefix_eq_none

theorem inputBits_eq_none_iff {s : State} : s.inputBits = none ↔ Unwritten s.mem.bitsIn s.bitsInLen.toNat :=
  bufPrefix_eq_none

theorem inputBits_eq_some_iff {s : State} {b : List Bit} :
    s.inputBits = some b ↔ Wrote s.mem.bitsIn s.bitsInLen b :=
  wrote_iff_bufPrefix.symm

/-! ## RESOLVE, ENCODE and DECODE -/

/-- RESOLVE reads no buffer (40_profile.md R69). -/
theorem execResolve_faults (sel : BitVec 2) (s : State) : FaultsExactlyWhen False (execResolve sel s) := by
  obtain ⟨_, h⟩ | ⟨_, _, h⟩ := execResolve_cases sel s
  all_goals
    rw [h]
    exact .of_next id

/-- ENCODE with its read of TXT_A as a value. -/
theorem execEncode_eq (s : State) :
    execEncode s =
      if s.txtALen.toNat > s.params.textCap then .next (s.raise .bitsOut (.capacity false))
      else s.textA.elim (.fault .commandInputNoValue) fun text => .next (s.encodeTextA text) := by
  unfold execEncode
  cases s.textA <;> rfl

/-- DECODE with its read of BITS_IN as a value. -/
theorem execDecode_eq (s : State) :
    execDecode s =
      if s.bitsInLen.toNat > s.params.bitsCap then .next (s.raise .txtOut (.capacity false))
      else s.inputBits.elim (.fault .commandInputNoValue) fun b => .next (s.decodeInput b) := by
  unfold execDecode
  cases s.inputBits <;> rfl

/-- ENCODE reads TXT_A below its length, once that length is within capacity (41_encode.md R80). -/
theorem execEncode_faults (s : State) :
    FaultsExactlyWhen (s.txtALen.toNat ≤ s.params.textCap ∧ Unwritten s.mem.txtA s.txtALen.toNat)
      (execEncode s) := by
  rw [← textA_eq_none_iff, execEncode_eq]
  exact .of_checkedRead ..

/-- DECODE reads BITS_IN below its length, once that length is within capacity (42_decode.md R93). -/
theorem execDecode_faults (s : State) :
    FaultsExactlyWhen (s.bitsInLen.toNat ≤ s.params.bitsCap ∧ Unwritten s.mem.bitsIn s.bitsInLen.toNat)
      (execDecode s) := by
  rw [← inputBits_eq_none_iff, execDecode_eq]
  exact .of_checkedRead ..

/-! ## SYNTH -/

/-- An element that SYNTH reads after its first pass holds no value: TXT_B[0], the rest of TXT_B in the secondary
branch, or TXT_A[0] where the stop test gets as far as that (43_synth.md R103, R104). `alt` is the alternate sentinel
(R102). -/
def SecondPassUnwritten (s : State) (alt : Byte) (rev : Bool) : Prop :=
  (1 ≤ s.txtBLen.toNat ∧ bufRead s.mem.txtB 0 = none) ∨
  (BeginsWith s.mem.txtB s.txtBLen alt ∧ Unwritten s.mem.txtB s.txtBLen.toNat) ∨
  (DoesNotBeginWith s.mem.txtB s.txtBLen alt ∧ rev = true ∧ 1 ≤ s.txtALen.toNat ∧ bufRead s.mem.txtA 0 = none)

theorem secondaryTest_none_iff (s : State) (t : Track) :
    s.secondaryTest t = none ↔ 1 ≤ s.txtBLen.toNat ∧ bufRead s.mem.txtB 0 = none := by
  unfold State.secondaryTest
  split
  case isTrue h => simp [h]
  case isFalse h => simp [Nat.one_le_iff_ne_zero, h]

theorem stopTest_none_iff (s : State) (t : Track) (rev : Bool) :
    s.stopTest t rev = none ↔ rev = true ∧ 1 ≤ s.txtALen.toNat ∧ bufRead s.mem.txtA 0 = none := by
  unfold State.stopTest
  cases rev with
  | false => simp
  | true => by_cases h : s.txtALen.toNat = 0 <;> simp [Nat.one_le_iff_ne_zero, h]

/-- The reads after the first pass, by the tests that make them. -/
theorem secondPassUnwritten_iff (s : State) (t : Track) (rev : Bool) :
    SecondPassUnwritten s (altSentinel t) rev ↔
      s.secondaryTest t = none ∨ (s.secondaryTest t = some true ∧ s.textB = none) ∨
        (s.secondaryTest t = some false ∧ s.stopTest t rev = none) := by
  rw [secondaryTest_none_iff, secondaryTest_true_iff, secondaryTest_false_iff, textB_eq_none_iff, stopTest_none_iff,
    SecondPassUnwritten]

theorem synthMaybeSecondary_faults (t : Track) (rev : Bool) (out : List Sample) (s : State) :
    FaultsExactlyWhen (SecondPassUnwritten s (altSentinel t) rev) (s.synthMaybeSecondary t rev out) := by
  refine .congr ?_ (secondPassUnwritten_iff s t rev).symm
  unfold State.synthMaybeSecondary
  cases s.secondaryTest t with
  | none => exact .of_fault (.inl rfl)
  | some secondary =>
    cases secondary with
    | true =>
      cases s.textB with
      | none => exact .of_fault (.inr (.inl ⟨rfl, rfl⟩))
      | some text => exact .of_next (by simp)
    | false =>
      cases s.stopTest t rev with
      | none => exact .of_fault (.inr (.inr ⟨rfl, rfl⟩))
      | some stop => cases stop <;> exact .of_next (by simp)

/-- The first pass writes the working state alone, so that what the second one reads is as SYNTH found it. -/
theorem synthPrimary_faults (t : Track) (rev : Bool) (bits : List Bit) (s : State) :
    FaultsExactlyWhen
      ((emitPass s.spb.toNat 32767 bits).1.length ≤ s.params.samplesCap ∧ SecondPassUnwritten s (altSentinel t) rev)
      (s.synthPrimary t rev bits) := by
  have hsamples : (s.beginSynth.runPass bits).2 = (emitPass s.spb.toNat 32767 bits).1 := rfl
  unfold State.synthPrimary
  dsimp only
  rw [hsamples]
  split
  case isTrue hlong => exact .of_next fun ⟨hfits, _⟩ => absurd hfits (Nat.not_le.mpr hlong)
  case isFalse hfits =>
    exact (synthMaybeSecondary_faults t rev _ _).congr (and_iff_right (Nat.not_lt.mp hfits)).symm

theorem synthInputTooLong_eq_false_iff (s : State) :
    s.synthInputTooLong = false ↔ s.bitsInLen.toNat ≤ s.params.bitsCap ∧ s.txtALen.toNat ≤ s.params.textCap ∧
      s.txtBLen.toNat ≤ s.params.textCap := by
  simp [State.synthInputTooLong, and_assoc]

/-- An element that SYNTH reads holds no value: in BITS_IN, or in a text once the first pass fits (43_synth.md R110;
log 16). -/
def SynthUnwritten (s : State) (alt : Byte) (rev : Bool) : Prop :=
  Unwritten s.mem.bitsIn s.bitsInLen.toNat ∨ ∃ b, SynthReady s b ∧ SecondPassUnwritten s alt rev

/-- The bitstream of `SynthReady` is the one SYNTH reads. -/
theorem synthUnwritten_of_inputBits {s : State} {alt : Byte} {rev : Bool} {bits : List Bit}
    (hlen : s.synthInputTooLong = false) (hb : s.inputBits = some bits) :
    SynthUnwritten s alt rev ↔
      (emitPass s.spb.toNat 32767 bits).1.length ≤ s.params.samplesCap ∧ SecondPassUnwritten s alt rev := by
  obtain ⟨hbits, hA, hB⟩ := (synthInputTooLong_eq_false_iff s).mp hlen
  unfold SynthUnwritten
  rw [← inputBits_eq_none_iff, hb]
  constructor
  · rintro (hnone | ⟨b, ⟨_, _, _, hwrote, hfits⟩, hsecond⟩)
    · cases hnone
    · obtain rfl : bits = b := Option.some.inj (hb.symm.trans (inputBits_eq_some_iff.mpr hwrote))
      exact ⟨hfits, hsecond⟩
  · rintro ⟨hfits, hsecond⟩
    exact .inr ⟨bits, ⟨hbits, hA, hB, inputBits_eq_some_iff.mp hb, hfits⟩, hsecond⟩

/-- SYNTH on a track checks its lengths, reads BITS_IN, and goes on to its passes. -/
theorem execSynth_faults {sel : BitVec 2} {t : Track} (ht : trackOf sel = some t) (rev : Bool) (s : State) :
    FaultsExactlyWhen (s.synthInputTooLong = false ∧ SynthUnwritten s (altSentinel t) rev) (execSynth sel rev s) := by
  unfold execSynth
  rw [ht]
  dsimp only
  split
  case isTrue hlong => exact .of_next (by simp [hlong])
  case isFalse hshort =>
    have hlen : s.synthInputTooLong = false := Bool.eq_false_of_not_eq_true hshort
    cases hb : s.inputBits with
    | none => exact .of_fault ⟨hlen, .inl (inputBits_eq_none_iff.mp hb)⟩
    | some bits =>
      exact (synthPrimary_faults t rev bits s).congr
        ((synthUnwritten_of_inputBits hlen hb).symm.trans (and_iff_right hlen).symm)

/-- Settles O49: SYNTH on a track faults exactly on what it reads, in the order in which it reads it. -/
theorem synthFaultsExactlyOnUnwrittenInput : Obligations.SynthFaultsExactlyOnUnwrittenInput := by
  intro s sel rev f hsel
  obtain ⟨t, ht, halt⟩ := trackOf_alt hsel
  have h := (execSynth_faults ht rev s).eq_fault_iff f
  rw [synthInputTooLong_eq_false_iff, halt, and_assoc, and_assoc] at h
  exact h

/-! ## Every command -/

/-- A SYNTH term with SEL = 0, which no word decodes to, reads nothing (log 14). -/
theorem execSynth_ne_refused (sel : BitVec 2) (rev : Bool) (s : State) (r : Refusal) :
    execSynth sel rev s ≠ .refused r := by
  cases ht : trackOf sel with
  | none => simp [execSynth, ht]
  | some t => exact (execSynth_faults ht rev s).ne_refused r

theorem exec_ne_refused (i : Instr) (s : State) (r : Refusal) : exec i s ≠ .refused r := by
  cases i with
  | resolve sel => exact (execResolve_faults sel s).ne_refused r
  | encode => exact (execEncode_faults s).ne_refused r
  | decode => exact (execDecode_faults s).ne_refused r
  | synth sel rev => exact execSynth_ne_refused sel rev s r

/-- Settles O48, from the unwritten elements each command faults on. -/
theorem resolveEncodeDecodeFaultExactlyOnUnwrittenInput :
    Obligations.ResolveEncodeDecodeFaultExactlyOnUnwrittenInput := by
  intro s f
  refine ⟨fun sel h => ?_, (execEncode_faults s).eq_fault_iff f, (execDecode_faults s).eq_fault_iff f,
    fun i r => exec_ne_refused i s r⟩
  obtain ⟨_, hfalse⟩ := ((execResolve_faults sel s).eq_fault_iff f).mp h
  exact hfalse

end Sys2Proof.Machine

/-! The command word (30_encoding.md R54 to R60): its four fields and what R60's masks keep of them, what the decoder
answers for each OP, and that a command runs the same whatever CMD holds. -/

namespace Sys2Proof

variable {w w' : BitVec 16}

/-! ## The fields of a command word -/

theorem cmdOp_toNat (w : BitVec 16) : (cmdOp w).toNat = w.toNat % 16 := by
  simp [cmdOp, BitVec.extractLsb'_toNat]

theorem cmdSel_toNat (w : BitVec 16) : (cmdSel w).toNat = w.toNat / 16 % 4 := by
  simp [cmdSel, BitVec.extractLsb'_toNat, Nat.shiftRight_eq_div_pow]

theorem cmdRev_toNat (w : BitVec 16) : (cmdRev w).toNat = w.toNat / 64 % 2 := by
  simp [cmdRev, BitVec.getLsbD, Nat.toNat_testBit]

theorem cmdRsv_toNat (w : BitVec 16) : (cmdRsv w).toNat = w.toNat / 128 := by
  have hw : w.toNat < 65536 := w.isLt
  simp only [cmdRsv, BitVec.extractLsb'_toNat, Nat.shiftRight_eq_div_pow]
  omega

/-- A word is its four fields (30_encoding.md R54). -/
theorem cmdWord_ext_iff : w = w' ↔
    cmdRsv w = cmdRsv w' ∧ cmdRev w = cmdRev w' ∧ cmdSel w = cmdSel w' ∧ cmdOp w = cmdOp w' := by
  constructor
  · rintro rfl
    exact ⟨rfl, rfl, rfl, rfl⟩
  · rintro ⟨hrsv, hrev, hsel, hop⟩
    have h7 : w.toNat / 128 = w'.toNat / 128 := by rw [← cmdRsv_toNat, hrsv, cmdRsv_toNat]
    have h6 : w.toNat / 64 % 2 = w'.toNat / 64 % 2 := by rw [← cmdRev_toNat, hrev, cmdRev_toNat]
    have h4 : w.toNat / 16 % 4 = w'.toNat / 16 % 4 := by rw [← cmdSel_toNat, hsel, cmdSel_toNat]
    have h0 : w.toNat % 16 = w'.toNat % 16 := by rw [← cmdOp_toNat, hop, cmdOp_toNat]
    exact BitVec.eq_of_toNat_eq (by omega)

theorem cmdRsv_and (w m : BitVec 16) : cmdRsv (w &&& m) = cmdRsv w &&& cmdRsv m := BitVec.extractLsb'_and
theorem cmdRev_and (w m : BitVec 16) : cmdRev (w &&& m) = (cmdRev w && cmdRev m) := BitVec.getLsbD_and
theorem cmdSel_and (w m : BitVec 16) : cmdSel (w &&& m) = cmdSel w &&& cmdSel m := BitVec.extractLsb'_and
theorem cmdOp_and (w m : BitVec 16) : cmdOp (w &&& m) = cmdOp w &&& cmdOp m := BitVec.extractLsb'_and

/-- RESOLVE's mask keeps RSV, SEL and OP (30_encoding.md R60). -/
theorem and_allButRev_eq_iff : w &&& 0xFFBF#16 = w' &&& 0xFFBF#16 ↔
    cmdRsv w = cmdRsv w' ∧ cmdSel w = cmdSel w' ∧ cmdOp w = cmdOp w' := by
  have hrsv : cmdRsv 0xFFBF#16 = BitVec.allOnes 9 := by decide
  have hrev : cmdRev 0xFFBF#16 = false := by decide
  have hsel : cmdSel 0xFFBF#16 = BitVec.allOnes 2 := by decide
  have hop : cmdOp 0xFFBF#16 = BitVec.allOnes 4 := by decide
  simp only [cmdWord_ext_iff, cmdRsv_and, cmdRev_and, cmdSel_and, cmdOp_and, hrsv, hrev, hsel, hop,
    BitVec.and_allOnes, Bool.and_false, true_and]

/-- The mask of ENCODE and DECODE keeps RSV and OP (30_encoding.md R60). -/
theorem and_allButSelRev_eq_iff : w &&& 0xFF8F#16 = w' &&& 0xFF8F#16 ↔
    cmdRsv w = cmdRsv w' ∧ cmdOp w = cmdOp w' := by
  have hrsv : cmdRsv 0xFF8F#16 = BitVec.allOnes 9 := by decide
  have hrev : cmdRev 0xFF8F#16 = false := by decide
  have hsel : cmdSel 0xFF8F#16 = 0#2 := by decide
  have hop : cmdOp 0xFF8F#16 = BitVec.allOnes 4 := by decide
  simp only [cmdWord_ext_iff, cmdRsv_and, cmdRev_and, cmdSel_and, cmdOp_and, hrsv, hrev, hsel, hop,
    BitVec.and_allOnes, BitVec.and_zero, Bool.and_false, true_and]

theorem cmdOp_and_low4 (w : BitVec 16) : cmdOp (w &&& 0x000F#16) = cmdOp w := by
  have hop : cmdOp 0x000F#16 = BitVec.allOnes 4 := by decide
  rw [cmdOp_and, hop, BitVec.and_allOnes]

section CmdWord

variable (rev : Bool) (sel : BitVec 2) (op : BitVec 4)

@[simp] theorem cmdRsv_cmdWord : cmdRsv (cmdWord rev sel op) = 0#9 := by revert rev sel op; decide
@[simp] theorem cmdRev_cmdWord : cmdRev (cmdWord rev sel op) = rev := by revert rev sel op; decide
@[simp] theorem cmdSel_cmdWord : cmdSel (cmdWord rev sel op) = sel := by revert rev sel op; decide
@[simp] theorem cmdOp_cmdWord : cmdOp (cmdWord rev sel op) = op := by revert rev sel op; decide

end CmdWord

/-! ## The command a word carries -/

/-- The word carries the command: its OP, and the operand fields the command reads (30_encoding.md R55 to R57). -/
def Instr.CarriedBy (w : BitVec 16) : Instr → Prop
  | .resolve sel => cmdOp w = 1#4 ∧ cmdSel w = sel
  | .encode => cmdOp w = 2#4
  | .decode => cmdOp w = 3#4
  | .synth sel rev => cmdOp w = 4#4 ∧ cmdSel w = sel ∧ cmdRev w = rev

/-- Every encoding has 0 in the fields its command ignores (30_encoding.md R63). -/
theorem encodeCmd_and_careMask (i : Instr) : encodeCmd i &&& i.careMask = encodeCmd i := by
  have hpattern : Laws.CarePattern.Statement i := by
    cases i with
    | resolve sel => exact Laws.CarePattern.resolve sel
    | encode => exact Laws.CarePattern.encode
    | decode => exact Laws.CarePattern.decode
    | synth sel rev => exact Laws.CarePattern.synth sel rev
  obtain ⟨hmasked, _, _⟩ := hpattern
  exact hmasked

/-- The word equals the command's encoding on the command's mask exactly when RSV = 0 and it carries the command. -/
theorem and_careMask_eq_encodeCmd_iff (w : BitVec 16) (i : Instr) :
    w &&& i.careMask = encodeCmd i ↔ cmdRsv w = 0#9 ∧ i.CarriedBy w := by
  have hcare : w &&& i.careMask = encodeCmd i ↔ w &&& i.careMask = encodeCmd i &&& i.careMask := by
    rw [encodeCmd_and_careMask]
  rw [hcare]
  cases i with
  | resolve sel =>
    refine and_allButRev_eq_iff.trans ?_
    simp [encodeCmd, Instr.CarriedBy, and_comm]
  | encode =>
    refine and_allButSelRev_eq_iff.trans ?_
    simp [encodeCmd, Instr.CarriedBy]
  | decode =>
    refine and_allButSelRev_eq_iff.trans ?_
    simp [encodeCmd, Instr.CarriedBy]
  | synth sel rev =>
    have hmask : (Instr.synth sel rev).careMask = BitVec.allOnes 16 := rfl
    rw [hmask, BitVec.and_allOnes, BitVec.and_allOnes, cmdWord_ext_iff]
    simp [encodeCmd, Instr.CarriedBy, and_comm, and_left_comm]

/-! ## What the decoder answers, OP by OP -/

/-- An OP that is no command (30_encoding.md R55). -/
def ReservedOp (op : BitVec 4) : Prop := op.toNat = 0 ∨ 5 ≤ op.toNat

theorem cmdOp_cases (op : BitVec 4) : op = 1#4 ∨ op = 2#4 ∨ op = 3#4 ∨ op = 4#4 ∨ ReservedOp op := by
  unfold ReservedOp
  revert op
  decide

theorem decodeCmd_of_rsv (hrsv : cmdRsv w ≠ 0#9) : decodeCmd w = none := by
  unfold decodeCmd
  rw [if_pos hrsv]

theorem decodeCmd_of_resolve (hrsv : cmdRsv w = 0#9) (hop : cmdOp w = 1#4) :
    decodeCmd w = if cmdSel w = 0#2 then none else some (.resolve (cmdSel w)) := by
  simp [decodeCmd, hrsv, hop]

theorem decodeCmd_of_encode (hrsv : cmdRsv w = 0#9) (hop : cmdOp w = 2#4) : decodeCmd w = some .encode := by
  simp [decodeCmd, hrsv, hop]

theorem decodeCmd_of_decode (hrsv : cmdRsv w = 0#9) (hop : cmdOp w = 3#4) : decodeCmd w = some .decode := by
  simp [decodeCmd, hrsv, hop]

theorem decodeCmd_of_synth (hrsv : cmdRsv w = 0#9) (hop : cmdOp w = 4#4) :
    decodeCmd w = if cmdSel w = 0#2 then none else some (.synth (cmdSel w) (cmdRev w)) := by
  simp [decodeCmd, hrsv, hop]

theorem decodeCmd_of_reservedOp (hop : ReservedOp (cmdOp w)) : decodeCmd w = none := by
  have hne : ∀ op : BitVec 4, ReservedOp op → op ≠ 1#4 ∧ op ≠ 2#4 ∧ op ≠ 3#4 ∧ op ≠ 4#4 := by
    unfold ReservedOp
    decide
  obtain ⟨h1, h2, h3, h4⟩ := hne _ hop
  simp [decodeCmd, h1, h2, h3, h4]

/-- R60's reserved words by their fields. -/
theorem reservedWord_iff (w : BitVec 16) : Machine.ReservedWord w ↔
    cmdRsv w ≠ 0#9 ∨ ReservedOp (cmdOp w) ∨ ((cmdOp w = 1#4 ∨ cmdOp w = 4#4) ∧ cmdSel w = 0#2) := by
  unfold Machine.ReservedWord ReservedOp
  simp [BitVec.toNat_eq, cmdRsv_toNat, cmdOp_toNat, cmdSel_toNat, or_assoc]

theorem decodeCmd_of_reservedWord (h : Machine.ReservedWord w) : decodeCmd w = none := by
  by_cases hrsv : cmdRsv w = 0#9
  case neg => exact decodeCmd_of_rsv hrsv
  case pos =>
    obtain hne | hop | ⟨hop | hop, hsel⟩ := (reservedWord_iff w).mp h
    · exact absurd hrsv hne
    · exact decodeCmd_of_reservedOp hop
    · rw [decodeCmd_of_resolve hrsv hop, if_pos hsel]
    · rw [decodeCmd_of_synth hrsv hop, if_pos hsel]

/-- A word with RSV = 0 and legal operands decodes to the command it carries (30_encoding.md R59). -/
theorem decodeCmd_of_carriedBy {i : Instr} (hrsv : cmdRsv w = 0#9) (hc : i.CarriedBy w) (hwf : i.wellFormed = true) :
    decodeCmd w = some i := by
  cases i with
  | resolve sel =>
    obtain ⟨hop, rfl⟩ := hc
    rw [decodeCmd_of_resolve hrsv hop, if_neg (bne_iff_ne.mp hwf)]
  | encode => exact decodeCmd_of_encode hrsv hc
  | decode => exact decodeCmd_of_decode hrsv hc
  | synth sel rev =>
    obtain ⟨hop, rfl, rfl⟩ := hc
    rw [decodeCmd_of_synth hrsv hop, if_neg (bne_iff_ne.mp hwf)]

/-- Every word is reserved, or it carries a well-formed command (30_encoding.md R59, R60). -/
theorem reservedWord_or_carriedBy (w : BitVec 16) :
    Machine.ReservedWord w ∨ cmdRsv w = 0#9 ∧ ∃ i : Instr, i.CarriedBy w ∧ i.wellFormed = true := by
  rw [reservedWord_iff]
  by_cases hrsv : cmdRsv w = 0#9
  case neg => exact .inl (.inl hrsv)
  case pos =>
    obtain hop | hop | hop | hop | hop := cmdOp_cases (cmdOp w)
    · obtain hsel | hsel := eq_or_ne (cmdSel w) 0#2
      · exact .inl (.inr (.inr ⟨.inl hop, hsel⟩))
      · exact .inr ⟨hrsv, .resolve (cmdSel w), ⟨hop, rfl⟩, bne_iff_ne.mpr hsel⟩
    · exact .inr ⟨hrsv, .encode, hop, rfl⟩
    · exact .inr ⟨hrsv, .decode, hop, rfl⟩
    · obtain hsel | hsel := eq_or_ne (cmdSel w) 0#2
      · exact .inl (.inr (.inr ⟨.inr hop, hsel⟩))
      · exact .inr ⟨hrsv, .synth (cmdSel w) (cmdRev w), ⟨hop, rfl, rfl⟩, bne_iff_ne.mpr hsel⟩
    · exact .inl (.inr (.inl hop))

theorem decodeCmd_eq_some_iff (w : BitVec 16) (i : Instr) :
    decodeCmd w = some i ↔ cmdRsv w = 0#9 ∧ i.CarriedBy w ∧ i.wellFormed = true := by
  constructor
  · intro h
    obtain hres | ⟨hrsv, j, hc, hwf⟩ := reservedWord_or_carriedBy w
    · rw [decodeCmd_of_reservedWord hres] at h
      cases h
    · obtain rfl : j = i := Option.some.inj ((decodeCmd_of_carriedBy hrsv hc hwf).symm.trans h)
      exact ⟨hrsv, hc, hwf⟩
  · rintro ⟨hrsv, hc, hwf⟩
    exact decodeCmd_of_carriedBy hrsv hc hwf

/-! ## The words, settled -/

/-- Settles O1: the eleven words of R63, then the words with ignored and with reserved fields set, each evaluated. -/
theorem listedWordsDecodeToTheirCommands : Obligations.ListedWordsDecodeToTheirCommands := by
  unfold Obligations.ListedWordsDecodeToTheirCommands
  decide

/-- Settles O2: both sides say that RSV = 0, that the word carries the command and that its operands are legal. -/
theorem wordDecodesExactlyWhenItsCareBitsAreTheEncoding :
    Obligations.WordDecodesExactlyWhenItsCareBitsAreTheEncoding := by
  intro w i
  rw [decodeCmd_eq_some_iff, and_careMask_eq_encodeCmd_iff]
  exact and_rotate.symm

/-- Settles O3: a word that is not reserved carries a command, and decodes to it. -/
theorem reservedWordsAreExactlyThoseWithoutACommand : Obligations.ReservedWordsAreExactlyThoseWithoutACommand := by
  refine fun w => ⟨fun hnone => ?_, decodeCmd_of_reservedWord⟩
  obtain hres | ⟨hrsv, i, hc, hwf⟩ := reservedWord_or_carriedBy w
  · exact hres
  · exact absurd (hnone.symm.trans (decodeCmd_of_carriedBy hrsv hc hwf)) (by simp)

end Sys2Proof

namespace Sys2Proof.Machine

variable {w w' : BitVec 16}

/-! ## Words that differ in ignored fields -/

theorem DifferInIgnoredFields.fields (h : DifferInIgnoredFields w w') :
    cmdRsv w = cmdRsv w' ∧ cmdOp w = cmdOp w' ∧
      (cmdOp w = 2#4 ∨ cmdOp w = 3#4 ∨ cmdOp w = 1#4 ∧ cmdSel w = cmdSel w') := by
  have hlow4 {v : BitVec 16} (hv : w &&& 0x000F#16 = v) : cmdOp w = cmdOp v := hv ▸ (cmdOp_and_low4 w).symm
  obtain ⟨hkeep, hop | hop⟩ | ⟨hkeep, hop⟩ := h
  · obtain ⟨hrsv, heq⟩ := and_allButSelRev_eq_iff.mp hkeep
    exact ⟨hrsv, heq, .inl (hlow4 hop)⟩
  · obtain ⟨hrsv, heq⟩ := and_allButSelRev_eq_iff.mp hkeep
    exact ⟨hrsv, heq, .inr (.inl (hlow4 hop))⟩
  · obtain ⟨hrsv, hsel, heq⟩ := and_allButRev_eq_iff.mp hkeep
    exact ⟨hrsv, heq, .inr (.inr ⟨hlow4 hop, hsel⟩)⟩

/-- Words that differ only in fields their command ignores decode alike (30_encoding.md R60). -/
theorem decodeCmd_eq_of_differInIgnoredFields (h : DifferInIgnoredFields w w') : decodeCmd w' = decodeCmd w := by
  obtain ⟨hrsv, heq, hop⟩ := h.fields
  by_cases hz : cmdRsv w = 0#9
  case neg => rw [decodeCmd_of_rsv hz, decodeCmd_of_rsv (hrsv ▸ hz)]
  case pos =>
    have hz' : cmdRsv w' = 0#9 := hrsv ▸ hz
    obtain hop | hop | ⟨hop, hsel⟩ := hop
    · rw [decodeCmd_of_encode hz hop, decodeCmd_of_encode hz' (heq ▸ hop)]
    · rw [decodeCmd_of_decode hz hop, decodeCmd_of_decode hz' (heq ▸ hop)]
    · rw [decodeCmd_of_resolve hz hop, decodeCmd_of_resolve hz' (heq ▸ hop), hsel]

/-! ## A command runs the same whatever CMD holds -/

/-- The state with another word in CMD. -/
def State.withCmd (w : BitVec 16) (s : State) : State := { s with cmd := w }

section WithCmd

variable (s : State) (w : BitVec 16)

@[simp] theorem withCmd_cmd : (s.withCmd w).cmd = w := rfl
@[simp] theorem withCmd_pad : (s.withCmd w).pad = s.pad := rfl
@[simp] theorem withCmd_txtALen : (s.withCmd w).txtALen = s.txtALen := rfl
@[simp] theorem withCmd_bitsInLen : (s.withCmd w).bitsInLen = s.bitsInLen := rfl
@[simp] theorem withCmd_params : (s.withCmd w).params = s.params := rfl
@[simp] theorem withCmd_textA : (s.withCmd w).textA = s.textA := rfl
@[simp] theorem withCmd_textB : (s.withCmd w).textB = s.textB := rfl
@[simp] theorem withCmd_inputBits : (s.withCmd w).inputBits = s.inputBits := rfl
@[simp] theorem withCmd_synthInputTooLong : (s.withCmd w).synthInputTooLong = s.synthInputTooLong := rfl
@[simp] theorem withCmd_secondaryTest (t : Track) : (s.withCmd w).secondaryTest t = s.secondaryTest t := rfl
@[simp] theorem withCmd_stopTest (t : Track) (rev : Bool) : (s.withCmd w).stopTest t rev = s.stopTest t rev := rfl
@[simp] theorem withCmd_beginSynth : (s.withCmd w).beginSynth = s.beginSynth.withCmd w := rfl
@[simp] theorem withCmd_runPass_fst (b : List Bit) : ((s.withCmd w).runPass b).1 = (s.runPass b).1.withCmd w := rfl
@[simp] theorem withCmd_runPass_snd (b : List Bit) : ((s.withCmd w).runPass b).2 = (s.runPass b).2 := rfl

end WithCmd

/-- A meaning that runs the same whatever CMD holds, and keeps CMD. -/
def CmdBlind (f : State → Host.Outcome State Fault Refusal) : Prop :=
  ∀ (s : State) (w : BitVec 16), f (s.withCmd w) = outcomeWithCmd w (f s)

theorem next_eq_outcomeWithCmd {s t : State} (h : t = s.withCmd w) :
    (.next t : Host.Outcome State Fault Refusal) = outcomeWithCmd w (.next s) :=
  congrArg Host.Outcome.next h

theorem execResolve_cmdBlind (sel : BitVec 2) : CmdBlind (execResolve sel) := by
  intro s w
  unfold execResolve
  cases trackOf sel with
  | none => rfl
  | some t => rfl

theorem encodeTextA_withCmd (text : List Byte) (s : State) (w : BitVec 16) :
    (s.withCmd w).encodeTextA text = (s.encodeTextA text).withCmd w := by
  unfold State.encodeTextA State.selectProfile
  rw [withCmd_pad, withCmd_params]
  cases autoProfile text <;> cases encodeText text s.pad.toNat with
  | error c => rfl
  | ok r => dsimp only; split <;> rfl

theorem execEncode_cmdBlind : CmdBlind execEncode := by
  intro s w
  unfold execEncode
  rw [withCmd_txtALen, withCmd_params, withCmd_textA]
  split
  · rfl
  · cases s.textA with
    | none => rfl
    | some text => exact next_eq_outcomeWithCmd (encodeTextA_withCmd text s w)

theorem decodeInput_withCmd (b : List Bit) (s : State) (w : BitVec 16) :
    (s.withCmd w).decodeInput b = (s.decodeInput b).withCmd w := by
  unfold State.decodeInput
  rw [withCmd_params]
  cases decodeBits b with
  | error c => rfl
  | ok out => dsimp only; split <;> rfl

theorem execDecode_cmdBlind : CmdBlind execDecode := by
  intro s w
  unfold execDecode
  rw [withCmd_bitsInLen, withCmd_params, withCmd_inputBits]
  split
  · rfl
  · cases s.inputBits with
    | none => rfl
    | some b => exact next_eq_outcomeWithCmd (decodeInput_withCmd b s w)

theorem synthFinish_withCmd (out : List Sample) (s : State) (w : BitVec 16) :
    (s.withCmd w).synthFinish out = (s.synthFinish out).withCmd w := by
  unfold State.synthFinish
  rw [withCmd_params]
  split <;> rfl

theorem synthReverse_withCmd (out : List Sample) (s : State) (w : BitVec 16) :
    (s.withCmd w).synthReverse out = (s.synthReverse out).withCmd w :=
  synthFinish_withCmd _ (s.runPass s.work.passBits.reverse).1 w

theorem synthSecondary_withCmd (out : List Sample) (text : List Byte) (s : State) (w : BitVec 16) :
    (s.withCmd w).synthSecondary out text = (s.synthSecondary out text).withCmd w := by
  have hwork : ({ s.withCmd w with work := encodeWork text (s.withCmd w).work } : State) =
      ({ s with work := encodeWork text s.work } : State).withCmd w := rfl
  unfold State.synthSecondary
  rw [hwork, withCmd_params]
  cases encodeText text 0 with
  | error c => rfl
  | ok r =>
    dsimp only
    split
    · rfl
    · rw [withCmd_runPass_fst, withCmd_runPass_snd, synthFinish_withCmd]

theorem synthMaybeSecondary_cmdBlind (t : Track) (rev : Bool) (out : List Sample) :
    CmdBlind (State.synthMaybeSecondary t rev out) := by
  intro s w
  unfold State.synthMaybeSecondary
  rw [withCmd_secondaryTest, withCmd_stopTest, withCmd_textB]
  split
  · rfl
  · cases s.textB with
    | none => rfl
    | some text => exact next_eq_outcomeWithCmd (synthSecondary_withCmd out text s w)
  · split
    · rfl
    · exact next_eq_outcomeWithCmd (synthFinish_withCmd out s w)
    · exact next_eq_outcomeWithCmd (synthReverse_withCmd out s w)

theorem synthPrimary_cmdBlind (t : Track) (rev : Bool) (bits : List Bit) :
    CmdBlind (State.synthPrimary t rev bits) := by
  intro s w
  unfold State.synthPrimary
  dsimp only
  rw [withCmd_beginSynth, withCmd_runPass_snd, withCmd_params]
  split
  · rfl
  · exact synthMaybeSecondary_cmdBlind t rev _ ((s.beginSynth.runPass bits).1.setSeq .maybeEmitSecondary) w

theorem execSynth_cmdBlind (sel : BitVec 2) (rev : Bool) : CmdBlind (execSynth sel rev) := by
  intro s w
  unfold execSynth
  rw [withCmd_synthInputTooLong, withCmd_inputBits]
  cases trackOf sel with
  | none => rfl
  | some t =>
    dsimp only
    split
    · rfl
    · cases s.inputBits with
      | none => rfl
      | some bits => exact synthPrimary_cmdBlind t rev bits s w

theorem exec_cmdBlind (i : Instr) : CmdBlind (exec i) := by
  cases i with
  | resolve sel => exact execResolve_cmdBlind sel
  | encode => exact execEncode_cmdBlind
  | decode => exact execDecode_cmdBlind
  | synth sel rev => exact execSynth_cmdBlind sel rev

/-- The execute step depends on CMD only through the command it decodes to. -/
theorem execute_withCmd {s : State} (h : decodeCmd w = decodeCmd s.cmd) :
    execute (s.withCmd w) = outcomeWithCmd w (execute s) := by
  unfold execute
  rw [withCmd_cmd, h]
  cases decodeCmd s.cmd with
  | none => rfl
  | some i => exact exec_cmdBlind i s w

/-- Settles O5: the words decode alike, and the command they decode to runs the same whatever CMD holds. -/
theorem ignoredFieldsDoNotChangeTheResult : Obligations.IgnoredFieldsDoNotChangeTheResult := by
  intro s w w' hcore hdiffer
  have hnext (v : BitVec 16) : CoreMovesNext (s.withCmd v) := hcore
  calc step (s.withCmd w')
      = execute (s.withCmd w') := step_of_coreMovesNext (hnext w')
    _ = outcomeWithCmd w' (execute (s.withCmd w)) :=
        execute_withCmd (s := s.withCmd w) (decodeCmd_eq_of_differInIgnoredFields hdiffer)
    _ = outcomeWithCmd w' (step (s.withCmd w)) := by rw [step_of_coreMovesNext (hnext w)]

end Sys2Proof.Machine

/-! RESOLVE and the ENCODE that succeeds: the profile a selector names and its packed form in PROF, and what ENCODE
leaves of the state it began in (40_profile.md R64 to R69; 41_encode.md R80; 10_state.md R34). -/

namespace Sys2Proof.Machine

/-! ## RESOLVE -/

/-- Every SEL but 0 is a track, and its packed profile is P1's for SEL = 1 and P23's for the others
(40_profile.md R64, R67, R68). -/
theorem trackOf_packProf {sel : BitVec 2} (h : sel ≠ 0#2) :
    ∃ t, trackOf sel = some t ∧ packProf (profile t) = if sel = 1#2 then 0x003F2007#32 else 0x000F3005#32 := by
  have hsel : sel = 1#2 ∨ sel = 2#2 ∨ sel = 3#2 := by revert sel; decide
  obtain rfl | rfl | rfl := hsel
  · exact ⟨.track1, rfl, rfl⟩
  · exact ⟨.track2, rfl, rfl⟩
  · exact ⟨.track3, rfl, rfl⟩

/-- RESOLVE of a track (40_profile.md R69). -/
theorem exec_resolve_of_track {sel : BitVec 2} {t : Track} (h : trackOf sel = some t) (s : State) :
    exec (.resolve sel) s = .next (s.setProf (profile t)).succeed := by
  change execResolve sel s = _
  unfold execResolve
  rw [h]

/-- Settles O18: SEL names a track, and PROF receives that track's packed profile. -/
theorem resolveWritesTheSelectedProfile : Obligations.ResolveWritesTheSelectedProfile := by
  intro s sel hsel
  obtain ⟨t, ht, hprof⟩ := trackOf_packProf hsel
  rw [← hprof]
  exact exec_resolve_of_track ht s

/-- RESOLVE tells two selectors apart by what it writes to PROF. -/
theorem resolve_ne_of_prof_ne {sel sel' : BitVec 2} {t t' : Track} (h : trackOf sel = some t)
    (h' : trackOf sel' = some t') (hne : packProf (profile t) ≠ packProf (profile t')) (s : State) :
    exec (.resolve sel) s ≠ exec (.resolve sel') s := by
  intro heq
  have hnext : Host.Outcome.next (s.setProf (profile t)).succeed = .next (s.setProf (profile t')).succeed :=
    (exec_resolve_of_track h s).symm.trans (heq.trans (exec_resolve_of_track h' s))
  injection hnext with hstate
  exact hne (congrArg State.prof hstate)

/-- Settles O19: RESOLVE depends on SEL only through the profile of its track, and packed P1 is not packed P23. -/
theorem track3HasTheProfileOfTrack2 : Obligations.Track3HasTheProfileOfTrack2 :=
  ⟨rfl, by decide, fun s =>
    ⟨(exec_resolve_of_track (sel := 2#2) (t := .track2) rfl s).trans
        (exec_resolve_of_track (sel := 3#2) (t := .track3) rfl s).symm,
      resolve_ne_of_prof_ne (t := .track1) (t' := .track2) rfl rfl (by decide) s⟩⟩

/-! ## ENCODE -/

theorem textA_eq_some_iff {s : State} {text : List Byte} : s.textA = some text ↔ Wrote s.mem.txtA s.txtALen text :=
  wrote_iff_bufPrefix.symm

/-- ENCODE of a written text within capacity is the encoding of that text. -/
theorem execEncode_of_wrote {s : State} {text : List Byte} (hcap : s.txtALen.toNat ≤ s.params.textCap)
    (hw : Wrote s.mem.txtA s.txtALen text) : execEncode s = .next (s.encodeTextA text) := by
  rw [execEncode_eq, if_neg hcap.not_gt, textA_eq_some_iff.mpr hw]
  rfl

theorem selectProfile_of_selects {text : List Byte} {p : Profile} (h : Selects text p) (s : State) :
    s.selectProfile text = s.setProf p := by
  unfold State.selectProfile
  rw [autoProfile_of_selects h]

/-- A legal text whose bitstream fits is stored framed, and the command returns (41_encode.md R80). -/
theorem encodeTextA_of_fits {s : State} {text : List Byte} {p : Profile} (hs : Selects text p)
    (hl : AllLegal p text) (hfit : (framed p text s.pad.toNat).length ≤ s.params.bitsCap) :
    s.encodeTextA text =
      (({ s with work := encodeWork text s.work, prof := packProf p } : State).storeBitsOut
        (framed p text s.pad.toNat)).complete .success := by
  unfold State.encodeTextA
  rw [selectProfile_of_selects hs, encodeText_legal hs hl]
  exact if_neg hfit.not_gt

/-- Storing a bitstream and completing leaves what R34 says, when both numbers fit their 32-bit registers. -/
theorem encodeLeaves_complete (s : State) (w : Working) (prof : Word32) {bits : List Bit} {c : Completion}
    (hbits : bits.length < 2 ^ 32) (hindex : c.index < 2 ^ 32) :
    EncodeLeaves s ((({ s with work := w, prof := prof } : State).storeBitsOut bits).complete c)
      bits prof (completedStatus c) c.index c.char :=
  ⟨bufOfList_holdsExactly bits, (BitVec.toNat_ofNat ..).trans (Nat.mod_eq_of_lt hbits),
    (BitVec.toNat_ofNat ..).trans (Nat.mod_eq_of_lt hindex), rfl⟩

/-- Settles O20: the text is read and encoded, its bitstream fits, and so its length fits BITS_OUT_LEN. -/
theorem encodeStoresTheFramedText : Obligations.EncodeStoresTheFramedText := by
  intro s text p hparams hcap hw hs hl hfit
  have hbits : (framed p text s.pad.toNat).length < 2 ^ 32 := hfit.trans_lt (params_ok_bounds hparams).2.1
  refine ⟨s.encodeTextA text, execEncode_of_wrote hcap hw, ?_⟩
  rw [encodeTextA_of_fits hs hl hfit]
  exact encodeLeaves_complete s (encodeWork text s.work) (packProf p) (c := .success) hbits (by decide)

end Sys2Proof.Machine

/-! The ENCODE that ends with an error, and the shape of an encoded text: its rows of data bits, where each frame and
the trailer stand, their parity and their columns (41_encode.md R70 to R82). -/

namespace Sys2Proof.Machine

/-! ## ENCODE that ends with an error -/

/-- A text whose encoding fails leaves no bitstream; PROF has its profile by then (41_encode.md R80). -/
theorem encodeTextA_of_error {s : State} {text : List Byte} {p : Profile} {c : Completion} (hs : Selects text p)
    (he : encodeText text s.pad.toNat = .error c) :
    s.encodeTextA text =
      (({ s with work := encodeWork text s.work, prof := packProf p } : State).storeBitsOut []).complete c := by
  unfold State.encodeTextA
  rw [selectProfile_of_selects hs, he]
  rfl

/-- A legal text whose bitstream is longer than BITS_CAP leaves none; PROF has its profile by then
(41_encode.md R80). -/
theorem encodeTextA_of_tooLong {s : State} {text : List Byte} {p : Profile} (hs : Selects text p)
    (hl : AllLegal p text) (hlong : s.params.bitsCap < (framed p text s.pad.toNat).length) :
    s.encodeTextA text =
      (({ s with work := encodeWork text s.work, prof := packProf p } : State).storeBitsOut []).complete
        (.capacity false) := by
  unfold State.encodeTextA
  rw [selectProfile_of_selects hs, encodeText_legal hs hl]
  exact if_pos hlong

/-- The empty text selects no profile, so that PROF keeps its value (41_encode.md R80; 92_eei_decisions.md D31). -/
theorem encodeTextA_nil (s : State) :
    s.encodeTextA [] =
      (s.storeBitsOut []).complete { code := .emptyInput, index := 0, char := 0, src := false } := rfl

/-- Every error of ENCODE leaves what R34 says with no bitstream, when its index fits ERR_INDEX. -/
theorem encodeLeaves_error (s : State) (w : Working) (prof : Word32) {c : Completion} (hindex : c.index < 2 ^ 32) :
    EncodeLeaves s ((({ s with work := w, prof := prof } : State).storeBitsOut []).complete c)
      [] prof (completedStatus c) c.index c.char :=
  encodeLeaves_complete s w prof (by decide) hindex

/-- Settles O22: the encoding fails at `c`, whose index is below the text's length and so fits ERR_INDEX. -/
theorem encodeReportsTheFirstIllegalCharacter : Obligations.EncodeReportsTheFirstIllegalCharacter := by
  intro s before after c p hcap hw hs hl hc
  have hindex : before.length < 2 ^ 32 := by
    have hlen := hw.1
    have hreg := s.txtALen.isLt
    rw [List.length_append, List.length_cons] at hlen
    omega
  refine ⟨s.encodeTextA (before ++ c :: after), execEncode_of_wrote hcap hw, ?_⟩
  rw [encodeTextA_of_error hs (encodeText_illegal hs hl hc s.pad.toNat)]
  have hleaves := encodeLeaves_error s (encodeWork (before ++ c :: after) s.work) (packProf p)
    (c := { code := .illegalCharacter, index := before.length, char := c, src := false }) hindex
  rwa [completedStatus_mk] at hleaves

/-- Settles O23: the text is encoded, and only then its length is found above BITS_CAP. -/
theorem encodeRejectsATooLongBitstream : Obligations.EncodeRejectsATooLongBitstream := by
  intro s text p hcap hw hs hl hlong
  refine ⟨s.encodeTextA text, execEncode_of_wrote hcap hw, ?_⟩
  rw [encodeTextA_of_tooLong hs hl hlong]
  exact encodeLeaves_error s _ (packProf p) (c := .capacity false) (by decide)

/-- Settles O24: a completion whose code is not OK stores the empty bitstream. -/
theorem failedEncodeLeavesNoBitstream : Obligations.FailedEncodeLeavesNoBitstream := by
  intro s t hexec hcode
  obtain ⟨w, prof, bits, c, rfl, -, hempty, -⟩ := execEncode_next hexec
  rw [State.complete_status, statusCode_completedStatus] at hcode
  have hbits : bits = [] := hempty fun hok => hcode (by rw [hok]; rfl)
  subst hbits
  exact ⟨rfl, fun _ => rfl⟩

/-- Settles O21: the length is checked before TXT_A is read, and the empty text is read but selects no profile. -/
theorem encodeRejectsTooLongAndEmptyText : Obligations.EncodeRejectsTooLongAndEmptyText := by
  refine fun s => ⟨fun hlong => ?_, fun hempty => ?_⟩
  · refine ⟨s.raise .bitsOut (.capacity false), (execEncode_eq s).trans (if_pos hlong), ?_⟩
    exact encodeLeaves_error s s.work s.prof (c := .capacity false) (by decide)
  · have hw : Wrote s.mem.txtA s.txtALen [] := ⟨hempty.symm, fun k hk => absurd hk (Nat.not_lt_zero k)⟩
    refine ⟨s.encodeTextA [], execEncode_of_wrote (hempty ▸ Nat.zero_le _) hw, ?_⟩
    rw [encodeTextA_nil]
    exact encodeLeaves_error s s.work s.prof (c := { code := .emptyInput, index := 0, char := 0, src := false })
      (by decide)

/-! ## Slices, parity and columns of bit sequences -/

theorem slice_append_left (pre b : List Bit) (i n : Nat) : slice (pre ++ b) (pre.length + i) n = slice b i n := by
  simp [slice]

theorem getElem?_slice {b : List Bit} {i n k : Nat} (hk : k < n) : (slice b i n)[k]? = b[i + k]? := by
  rw [slice, List.getElem?_take_of_lt hk, List.getElem?_drop]

/-- Where pieces of one width `n` are joined, piece `j` stands at `j * n`. -/
theorem slice_flatMap {α : Type} {f : α → List Bit} {n : Nat} {xs : List α} (hf : ∀ x ∈ xs, (f x).length = n)
    (post : List Bit) {j : Nat} {x : α} (hx : xs[j]? = some x) : slice (xs.flatMap f ++ post) (j * n) n = f x := by
  induction xs generalizing j with
  | nil => simp at hx
  | cons y ys ih =>
    have hy : (f y).length = n := hf y List.mem_cons_self
    rw [List.flatMap_cons, List.append_assoc]
    cases j with
    | zero =>
      obtain rfl : y = x := by simpa using hx
      simp [slice, hy]
    | succ j =>
      rw [Nat.succ_mul, Nat.add_comm, ← hy, slice_append_left, hy]
      exact ih (fun z hz => hf z (List.mem_cons_of_mem y hz)) (by simpa using hx)

theorem bitSum_append (xs ys : List Bit) : bitSum (xs ++ ys) = bitSum xs + bitSum ys := by
  induction xs with
  | nil => simp [bitSum]
  | cons x xs ih => simp only [List.cons_append, bitSum, ih, Nat.add_assoc]

/-- Data bits with their parity bit have odd population (41_encode.md R72, R82). -/
theorem bitSum_withParity_odd (d : List Bit) : bitSum (withParity d) % 2 = 1 := by
  have hparity : (parityBit d).toNat = (1 + bitSum d) % 2 := by
    unfold parityBit parityAcc
    obtain h | h := Nat.mod_two_eq_zero_or_one (1 + bitSum d) <;> rw [h] <;> rfl
  simp only [withParity, bitSum_append, bitSum, hparity]
  omega

@[simp] theorem length_withParity (d : List Bit) : (withParity d).length = d.length + 1 := by
  simp [withParity]

@[simp] theorem length_dataBits (p : Profile) (c : Byte) : (dataBits p c).length = p.dataWidth := by
  simp [dataBits, bitsLsbFirst]

theorem length_xorColumns {n : Nat} {acc d : List Bit} (hacc : acc.length = n) (hd : d.length = n) :
    (xorColumns acc d).length = n := by
  simp [xorColumns, hacc, hd]

theorem length_foldl_xorColumns {n : Nat} {rows : List (List Bit)} (hrows : ∀ d ∈ rows, d.length = n)
    {acc : List Bit} (hacc : acc.length = n) : (rows.foldl xorColumns acc).length = n := by
  induction rows generalizing acc with
  | nil => exact hacc
  | cons d rows ih =>
    exact ih (fun e he => hrows e (List.mem_cons_of_mem d he))
      (length_xorColumns hacc (hrows d List.mem_cons_self))

/-- One more 1 inverts the parity of a count. -/
theorem add_toNat_mod_two_beq_one (m : Nat) (x : Bit) : ((m + x.toNat) % 2 == 1) = (x ^^ (m % 2 == 1)) := by
  cases x with
  | false => simp
  | true =>
    obtain h | h := Nat.mod_two_eq_zero_or_one m <;> simp [Nat.add_mod, h]

/-- Column `i` of the accumulated exclusive-or is the accumulator's own bit, inverted once for each row with a 1 there
(41_encode.md R74). -/
theorem getElem?_foldl_xorColumns {n i : Nat} (hi : i < n) {rows : List (List Bit)}
    (hrows : ∀ d ∈ rows, d.length = n) {acc : List Bit} (hacc : acc.length = n) {a : Bit} (ha : acc[i]? = some a) :
    (rows.foldl xorColumns acc)[i]? = some (a ^^ (rows.countP (fun d => d[i]? == some true) % 2 == 1)) := by
  induction rows generalizing acc a with
  | nil => simpa using ha
  | cons d rows ih =>
    have hd : d.length = n := hrows d List.mem_cons_self
    have hx : d[i]? = some d[i] := List.getElem?_eq_getElem (hd.symm ▸ hi)
    have hxor : (xorColumns acc d)[i]? = some (a ^^ d[i]) := by
      simp only [xorColumns, List.getElem?_zipWith, ha, hx]
    have hcount : (d :: rows).countP (fun e => e[i]? == some true) =
        rows.countP (fun e => e[i]? == some true) + d[i].toNat := by
      rw [List.countP_cons, hx]
      cases d[i] <;> rfl
    rw [List.foldl_cons, ih (fun e he => hrows e (List.mem_cons_of_mem d he)) (length_xorColumns hacc hd) hxor,
      hcount, add_toNat_mod_two_beq_one, Bool.xor_assoc]

/-- A count over a list is the count over its indices. -/
theorem countP_range_length {α : Type} {xs : List α} {q : α → Bool} {r : Nat → Bool}
    (h : ∀ j (hj : j < xs.length), r j = q xs[j]) : (List.range xs.length).countP r = xs.countP q := by
  have hmap : (List.range xs.length).map r = xs.map q :=
    List.ext_getElem (by simp) fun j _ hj => by simpa using h j (by simpa using hj)
  simpa [List.countP_map] using congrArg (List.countP id) hmap

/-! ## The rows of an encoded text -/

theorem length_lrcOf (p : Profile) (text : List Byte) : (lrcOf p text).length = p.dataWidth :=
  length_foldl_xorColumns (by simp) (by simp [zeros])

/-- Column `i` of the trailer is 1 when an odd number of characters have a 1 there (41_encode.md R74, R82). -/
theorem getElem?_lrcOf (p : Profile) (text : List Byte) {i : Nat} (hi : i < p.dataWidth) :
    (lrcOf p text)[i]? = some (text.countP (fun c => (dataBits p c)[i]? == some true) % 2 == 1) := by
  have hzero : (zeros p.dataWidth)[i]? = some false := by simp [zeros, hi]
  rw [lrcOf, getElem?_foldl_xorColumns hi (by simp) (by simp [zeros]) hzero, List.countP_map, Bool.false_xor]
  rfl

/-- The data bits an encoded text carries, row by row: those of each character, then those of the trailer
(41_encode.md R73, R75). -/
def dataRows (p : Profile) (text : List Byte) : List (List Bit) := text.map (dataBits p) ++ [lrcOf p text]

@[simp] theorem length_dataRows (p : Profile) (text : List Byte) : (dataRows p text).length = text.length + 1 := by
  simp [dataRows]

theorem getElem?_dataRows_char (p : Profile) {text : List Byte} {j : Nat} {c : Byte} (hc : text[j]? = some c) :
    (dataRows p text)[j]? = some (dataBits p c) := by
  rw [dataRows, List.getElem?_append_left (by simpa using (List.getElem?_eq_some_iff.mp hc).1), List.getElem?_map, hc]
  rfl

theorem getElem?_dataRows_trailer (p : Profile) (text : List Byte) :
    (dataRows p text)[text.length]? = some (lrcOf p text) := by
  simp [dataRows]

theorem length_of_mem_dataRows {p : Profile} {text : List Byte} {d : List Bit} (h : d ∈ dataRows p text) :
    d.length = p.dataWidth := by
  obtain h | h := List.mem_append.mp h
  · obtain ⟨c, -, rfl⟩ := List.mem_map.mp h
    exact length_dataBits p c
  · rw [List.mem_singleton.mp h]
    exact length_lrcOf p text

theorem framesOf_eq (p : Profile) (text : List Byte) :
    framesOf p text = (text.map (dataBits p)).flatMap withParity := by
  rw [List.flatMap_map]
  rfl

/-- An encoded text is its rows, each with its parity bit, between the padding (41_encode.md R76). -/
theorem framed_eq_dataRows (p : Profile) (text : List Byte) (pad : Nat) :
    framed p text pad = zeros pad ++ ((dataRows p text).flatMap withParity ++ zeros pad) := by
  simp [framed, framesOf_eq, dataRows]

/-! ## The encoding of a text that succeeds -/

theorem autoProfile_eq_some_iff {text : List Byte} {p : Profile} : autoProfile text = some p ↔ Selects text p := by
  refine ⟨fun h => ?_, autoProfile_of_selects⟩
  cases text with
  | nil => cases h
  | cons c cs =>
    cases h
    refine ⟨c, cs, rfl, ?_⟩
    by_cases hc : c = charPercent
    · exact .inl ⟨hc, if_pos hc⟩
    · exact .inr ⟨hc, if_neg hc⟩

/-- The character loop ends without an offending character only on a legal text (41_encode.md R70, R78). -/
theorem allLegal_of_encodeChars {p : Profile} {cs : List Byte} {k par : Nat} {lrc : List Bit}
    (h : (encodeChars p k lrc par cs).bad = none) : AllLegal p cs := by
  induction cs generalizing k lrc par with
  | nil => exact fun _ hc => absurd hc List.not_mem_nil
  | cons c cs ih =>
    unfold encodeChars at h
    by_cases hc : legalChar p c = true
    · rw [if_pos hc] at h
      exact List.forall_mem_cons.mpr ⟨(legalChar_iff p c).mp hc, ih h⟩
    · rw [if_neg hc] at h
      cases h

/-- `encodeText` succeeds exactly on a text that is legal under the profile it selects (41_encode.md R78). -/
theorem encodeText_eq_ok_iff {text : List Byte} {pad : Nat} {bits : List Bit} {p : Profile} :
    encodeText text pad = .ok (bits, p) ↔ Selects text p ∧ AllLegal p text ∧ bits = framed p text pad := by
  constructor
  · intro h
    obtain ⟨q, hq⟩ : ∃ q, autoProfile text = some q := by
      cases hq : autoProfile text with
      | none => simp [encodeText, hq] at h
      | some q => exact ⟨q, rfl⟩
    have hs := autoProfile_eq_some_iff.mp hq
    have hl : AllLegal q text := by
      refine allLegal_of_encodeChars (k := 0) (lrc := zeros q.dataWidth) (par := 1) ?_
      simp only [encodeText, hq] at h
      cases hbad : (encodeLoop q text).bad with
      | none => exact hbad
      | some c => simp [hbad] at h
    rw [encodeText_legal hs hl] at h
    cases h
    exact ⟨hs, hl, rfl⟩
  · rintro ⟨hs, hl, rfl⟩
    exact encodeText_legal hs hl pad

theorem Selects.bitsPerChar_eq {text : List Byte} {p : Profile} (h : Selects text p) :
    p.bitsPerChar = p.dataWidth + 1 := by
  obtain ⟨c, cs, -, ⟨-, rfl⟩ | ⟨-, rfl⟩⟩ := h <;> rfl

section Framed
variable {text : List Byte} {p : Profile}

theorem length_withParity_of_mem_dataRows (hs : Selects text p) {d : List Bit} (h : d ∈ dataRows p text) :
    (withParity d).length = p.bitsPerChar := by
  rw [length_withParity, length_of_mem_dataRows h, hs.bitsPerChar_eq]

/-- The length of R79. -/
theorem length_framed (hs : Selects text p) (pad : Nat) :
    (framed p text pad).length = 2 * pad + (text.length + 1) * p.bitsPerChar := by
  have hrows : ((dataRows p text).flatMap withParity).length = (text.length + 1) * p.bitsPerChar := by
    rw [List.length_flatMap, List.map_congr_left fun d hd => length_withParity_of_mem_dataRows hs hd]
    simp
  rw [framed_eq_dataRows, List.length_append, List.length_append, hrows, zeros, List.length_replicate]
  omega

/-- Row `j` of an encoded text stands as a frame at `pad + j * bitsPerChar` (41_encode.md R76, R79). -/
theorem slice_framed (hs : Selects text p) (pad : Nat) {j : Nat} {d : List Bit} (hd : (dataRows p text)[j]? = some d) :
    slice (framed p text pad) (pad + j * p.bitsPerChar) p.bitsPerChar = withParity d := by
  have hpad : (zeros pad).length = pad := List.length_replicate
  rw [framed_eq_dataRows, ← congrArg (· + j * p.bitsPerChar) hpad, slice_append_left]
  exact slice_flatMap (fun e he => length_withParity_of_mem_dataRows hs he) (zeros pad) hd

/-- Column `i` of row `j` of an encoded text stands at `pad + j * bitsPerChar + i`. -/
theorem getElem?_framed (hs : Selects text p) (pad : Nat) {i j : Nat} {d : List Bit}
    (hd : (dataRows p text)[j]? = some d) (hi : i < p.dataWidth) :
    (framed p text pad)[pad + j * p.bitsPerChar + i]? = d[i]? := by
  have hlen : d.length = p.dataWidth := length_of_mem_dataRows (List.mem_of_getElem? hd)
  have hwidth := hs.bitsPerChar_eq
  rw [← getElem?_slice (n := p.bitsPerChar) (by omega), slice_framed hs pad hd, withParity,
    List.getElem?_append_left (by omega)]

/-- The trailer's columns are the exclusive-or of the frames' (41_encode.md R82). -/
theorem getElem?_framed_trailer (hs : Selects text p) (pad : Nat) {i : Nat} (hi : i < p.dataWidth) :
    (framed p text pad)[pad + text.length * p.bitsPerChar + i]? =
      some ((List.range text.length).countP
        (fun j => (framed p text pad)[pad + j * p.bitsPerChar + i]? == some true) % 2 == 1) := by
  have hcount := countP_range_length (xs := text) (q := fun c => (dataBits p c)[i]? == some true)
    (r := fun j => (framed p text pad)[pad + j * p.bitsPerChar + i]? == some true) fun j hj =>
      congrArg (· == some true)
        (getElem?_framed hs pad (getElem?_dataRows_char p (List.getElem?_eq_getElem hj)) hi)
  rw [getElem?_framed hs pad (getElem?_dataRows_trailer p text) hi, getElem?_lrcOf p text hi, hcount]

end Framed

/-- Settles O25: the first row is the first character's, and the last the trailer's. -/
theorem encodedTextHasTheStatedLength : Obligations.EncodedTextHasTheStatedLength := by
  intro text p pad hs hl
  refine ⟨framed p text pad, encodeText_legal hs hl pad, length_framed hs pad, ?_⟩
  rintro rfl
  constructor
  · intro c hc
    have hfirst := slice_framed hs 0 (getElem?_dataRows_char p (List.head?_eq_getElem?.symm.trans hc))
    rwa [Nat.zero_mul, Nat.add_zero] at hfirst
  · have htrailer := slice_framed hs 0 (getElem?_dataRows_trailer p text)
    rwa [Nat.zero_add] at htrailer

/-- The bounds of P1: '_' is legal and the code after it is not (41_encode.md R82). -/
theorem encodeText_bounds_profile1 (pad : Nat) :
    (∃ r, encodeText [37#8, 95#8] pad = .ok r) ∧
    encodeText [37#8, 96#8] pad = .error { code := .illegalCharacter, index := 1, char := 96#8, src := false } :=
  ⟨⟨_, encodeText_legal (p := profile1) (autoProfile_eq_some_iff.mp rfl) (by unfold AllLegal; decide) pad⟩,
    encodeText_illegal (before := [37#8]) (after := []) (p := profile1) (autoProfile_eq_some_iff.mp rfl)
      (by unfold AllLegal; decide) (by unfold AllLegal; decide) pad⟩

/-- The bounds of P23: '?' is legal and '@' is not (41_encode.md R82). -/
theorem encodeText_bounds_profile23 (pad : Nat) :
    (∃ r, encodeText [63#8] pad = .ok r) ∧
    encodeText [64#8] pad = .error { code := .illegalCharacter, index := 0, char := 64#8, src := false } :=
  ⟨⟨_, encodeText_legal (p := profile23) (autoProfile_eq_some_iff.mp rfl) (by unfold AllLegal; decide) pad⟩,
    encodeText_illegal (before := []) (after := []) (p := profile23) (autoProfile_eq_some_iff.mp rfl)
      (by unfold AllLegal; decide) (by unfold AllLegal; decide) pad⟩

/-- Settles O26: the bits are the framed text, whose slices are rows with their parity. -/
theorem encodedFramesAreOddAndTheTrailerTheirXor : Obligations.EncodedFramesAreOddAndTheTrailerTheirXor := by
  refine ⟨fun text pad bits p h => ?_, fun pad => ?_⟩
  · obtain ⟨hs, -, rfl⟩ := encodeText_eq_ok_iff.mp h
    refine ⟨fun j hj => ?_, fun i hi => getElem?_framed_trailer hs pad hi⟩
    have hrow : j < (dataRows p text).length := by rw [length_dataRows]; omega
    rw [slice_framed hs pad (List.getElem?_eq_getElem hrow)]
    exact bitSum_withParity_odd _
  · obtain ⟨hlegal1, hillegal1⟩ := encodeText_bounds_profile1 pad
    obtain ⟨hlegal23, hillegal23⟩ := encodeText_bounds_profile23 pad
    exact ⟨hlegal1, hillegal1, hlegal23, hillegal23⟩

end Sys2Proof.Machine

/-! The searches of DECODE: START_POS is the first start pattern and END_POS the first end pattern aligned to it
(42_decode.md R84, R85), and what the command leaves of the state it began in (R93; 10_state.md R34). -/

namespace Sys2Proof.Machine

/-! ## Slices of slices -/

theorem slice_slice {b : List Bit} {i m j n : Nat} (h : j + n ≤ m) : slice (slice b i m) j n = slice b (i + j) n := by
  simp only [slice, List.drop_take, List.take_take, List.drop_drop]
  rw [Nat.min_eq_left (by omega)]

theorem slice_drop (b : List Bit) (i j n : Nat) : slice (b.drop i) j n = slice b (i + j) n := by
  simp [slice, List.drop_drop]

theorem slice_add (b : List Bit) (i m n : Nat) : slice b i (m + n) = slice b i m ++ slice b (i + m) n := by
  simp [slice, List.take_add, List.drop_drop]

theorem take_slice {b : List Bit} {i m n : Nat} (h : m ≤ n) : (slice b i n).take m = slice b i m := by
  rw [slice, slice, List.take_take, Nat.min_eq_left h]

/-- A slice that is not cut short lies inside the sequence. -/
theorem length_slice_eq_iff {b : List Bit} {i n : Nat} (hn : 0 < n) : (slice b i n).length = n ↔ i + n ≤ b.length := by
  rw [slice, List.length_take, List.length_drop]
  omega

/-- What stands in front of further bits stands in the longer sequence too. -/
theorem slice_append_of_le {b : List Bit} (tail : List Bit) {i n : Nat} (h : i + n ≤ b.length) :
    slice (b ++ tail) i n = slice b i n := by
  rw [slice, slice, List.drop_append_of_le_length (by omega), List.take_append_of_le_length (by
    rw [List.length_drop]; omega)]

/-! ## Where a pattern stands -/

/-- The start pattern is the frame of `'%'` (42_decode.md R84). -/
theorem startPattern_eq_frame : startPattern = frame profile1 37#8 := by decide

/-- The end pattern is the frame of `'?'` (42_decode.md R85). -/
theorem endPattern_eq_frame : endPattern = frame profile1 63#8 := by decide

section Patterns

variable {pat b : List Bit}

/-- A nonempty pattern stands where the slice of its length is the pattern. -/
theorem standsAt_iff_slice (hpat : pat ≠ []) {p : Nat} : StandsAt pat b p ↔ slice b p pat.length = pat := by
  refine ⟨fun ⟨_, hslice⟩ => hslice, fun hslice => ⟨?_, hslice⟩⟩
  exact (length_slice_eq_iff (List.length_pos_iff.mpr hpat)).mp (congrArg List.length hslice)

theorem standsAt_drop (hpat : pat ≠ []) (i p : Nat) : StandsAt pat (b.drop i) p ↔ StandsAt pat b (i + p) := by
  rw [standsAt_iff_slice hpat, standsAt_iff_slice hpat, slice_drop]

theorem standsAt_startPattern_iff {p : Nat} : StandsAt startPattern b p ↔ slice b p 7 = startPattern :=
  standsAt_iff_slice (by decide)

theorem standsAt_endPattern_iff {p : Nat} : StandsAt endPattern b p ↔ slice b p 7 = endPattern :=
  standsAt_iff_slice (by decide)

end Patterns

theorem FirstAt.le_length {pat b : List Bit} {p : Nat} (h : FirstAt pat b p) : p ≤ b.length := by
  obtain ⟨⟨hinside, -⟩, -⟩ := h
  omega

/-! ## Searches that find the least position -/

/-- `FirstAt` and `FirstAlignedEnd` say in the spec's words that a position is the least of a set. -/
theorem isLeast_setOf_iff {P : Nat → Prop} {p : Nat} : IsLeast {q | P q} p ↔ P p ∧ ∀ q < p, ¬P q :=
  and_congr_right fun _ =>
    ⟨fun hle _ hq hP => absurd (hle hP) (Nat.not_le.mpr hq), fun hnot q hP => Nat.not_lt.mp fun hq => hnot q hq hP⟩

theorem firstAt_iff_isLeast {pat b : List Bit} {p : Nat} : FirstAt pat b p ↔ IsLeast {q | StandsAt pat b q} p :=
  isLeast_setOf_iff.symm

theorem firstAlignedEnd_iff_isLeast {b : List Bit} {start p : Nat} :
    FirstAlignedEnd b start p ↔ IsLeast {q | AlignedEnd b start q} p :=
  isLeast_setOf_iff.symm

theorem exists_isLeast {P : Nat → Prop} {p : Nat} (hp : P p) : ∃ q, IsLeast {r | P r} q :=
  ⟨sInf {r | P r}, Nat.sInf_mem ⟨p, hp⟩, fun _ hr => Nat.sInf_le hr⟩

/-- A search that answers exactly the least position answers none exactly when there is no position. -/
theorem eq_none_iff_of_isLeast {P : Nat → Prop} {o : Option Nat} (h : ∀ p, o = some p ↔ IsLeast {q | P q} p) :
    o = none ↔ ∀ p, ¬P p := by
  constructor
  · rintro rfl p hp
    obtain ⟨q, hleast⟩ := exists_isLeast hp
    cases (h q).mpr hleast
  · intro hnone
    refine Option.eq_none_iff_forall_ne_some.mpr fun p hp => ?_
    obtain ⟨hP, -⟩ := (h p).mp hp
    exact hnone p hP

theorem findStart_eq_some_iff {b : List Bit} {p : Nat} : findStart b = some p ↔ FirstAt startPattern b p := by
  rw [findStart, findFrom_eq_some (by decide)]
  simp

theorem findStart_eq_none_iff {b : List Bit} : findStart b = none ↔ ∀ p, ¬StandsAt startPattern b p :=
  eq_none_iff_of_isLeast fun _ => findStart_eq_some_iff.trans firstAt_iff_isLeast

/-- A search from bit `i` on answers the least position at or after `i`. -/
theorem findFrom_drop_eq_some_iff {pat b : List Bit} (hpat : pat ≠ []) {i p : Nat} :
    findFrom pat (b.drop i) i = some p ↔ IsLeast {q | i ≤ q ∧ StandsAt pat b q} p := by
  rw [findFrom_eq_some hpat, isLeast_setOf_iff]
  simp only [FirstAt, standsAt_drop hpat]
  constructor
  · rintro ⟨r, rfl, hstands, hfirst⟩
    refine ⟨⟨Nat.le_add_right i r, hstands⟩, fun q hq ⟨hiq, hs⟩ => hfirst (q - i) (by omega) ?_⟩
    rwa [Nat.add_sub_cancel' hiq]
  · rintro ⟨⟨hip, hstands⟩, hfirst⟩
    have hp : i + (p - i) = p := Nat.add_sub_cancel' hip
    exact ⟨p - i, hp.symm, hp.symm ▸ hstands, fun q hq hs => hfirst (i + q) (by omega) ⟨Nat.le_add_right i q, hs⟩⟩

theorem findFrom_drop_eq_none_iff {pat b : List Bit} (hpat : pat ≠ []) {i : Nat} :
    findFrom pat (b.drop i) i = none ↔ ∀ p, ¬(i ≤ p ∧ StandsAt pat b p) :=
  eq_none_iff_of_isLeast fun _ => findFrom_drop_eq_some_iff hpat

/-- Past a misaligned occurrence that is the least one from `q` on, the aligned ends from `q` on are those after it
(42_decode.md R85). -/
theorem alignedEnd_from_iff_after {b : List Bit} {start q e : Nat}
    (hleast : IsLeast {r | q ≤ r ∧ StandsAt endPattern b r} e) (he : (e - start) % 7 ≠ 0) (p : Nat) :
    (q ≤ p ∧ AlignedEnd b start p) ↔ (e + 1 ≤ p ∧ AlignedEnd b start p) := by
  obtain ⟨⟨hqe, -⟩, hle⟩ := hleast
  refine and_congr_left fun ⟨_, hstands, haligned⟩ => ⟨fun hqp => ?_, fun hep => by omega⟩
  have hep : e ≤ p := hle ⟨hqp, hstands⟩
  have hne : e ≠ p := fun h => he (h ▸ haligned)
  omega

/-- With a round for each bit from `q` on, the loop answers the least aligned end at or after `q` (42_decode.md R85;
log 21). -/
theorem endLoop_eq_some_iff {b : List Bit} {start rounds q p : Nat} (hrounds : b.length < q + rounds)
    (hq : start ≤ q) :
    endLoop b start rounds q = some p ↔ IsLeast {r | q ≤ r ∧ AlignedEnd b start r} p := by
  induction rounds generalizing q with
  | zero =>
    refine ⟨fun h => (nomatch h), fun ⟨⟨hqp, _, ⟨hlen, _⟩, _⟩, _⟩ => ?_⟩
    omega
  | succ rounds ih =>
    rw [endLoop]
    cases hfind : findFrom endPattern (b.drop q) q with
    | none =>
      have hnone := (findFrom_drop_eq_none_iff (by decide)).mp hfind
      exact ⟨fun h => (nomatch h), fun ⟨⟨hqp, _, hstands, _⟩, _⟩ => absurd ⟨hqp, hstands⟩ (hnone p)⟩
    | some e =>
      have hleast := (findFrom_drop_eq_some_iff (by decide)).mp hfind
      have ⟨⟨hqe, hstands⟩, hle⟩ := hleast
      dsimp only
      by_cases haligned : (e - start) % decodeWidth = 0
      case pos =>
        have hend : IsLeast {r | q ≤ r ∧ AlignedEnd b start r} e :=
          ⟨⟨hqe, hq.trans hqe, hstands, haligned⟩, fun r ⟨hqr, _, hs, _⟩ => hle ⟨hqr, hs⟩⟩
        rw [if_pos haligned, Option.some.injEq]
        exact ⟨fun h => h ▸ hend, fun h => hend.unique h⟩
      case neg =>
        rw [if_neg haligned, ih (by omega) (by omega)]
        simp only [alignedEnd_from_iff_after hleast haligned]

theorem findEnd_eq_some_iff {b : List Bit} {start p : Nat} :
    findEnd b start = some p ↔ FirstAlignedEnd b start p := by
  have hfrom (r : Nat) : (start ≤ r ∧ AlignedEnd b start r) ↔ AlignedEnd b start r :=
    and_iff_right_of_imp fun ⟨hle, _⟩ => hle
  rw [findEnd, endLoop_eq_some_iff (by omega) le_rfl, firstAlignedEnd_iff_isLeast]
  simp only [hfrom]

theorem findEnd_eq_none_iff {b : List Bit} {start : Nat} :
    findEnd b start = none ↔ ∀ p, ¬AlignedEnd b start p :=
  eq_none_iff_of_isLeast fun _ => findEnd_eq_some_iff.trans firstAlignedEnd_iff_isLeast

/-- Without a start sentinel (42_decode.md R84). -/
theorem decodeBits_of_noStart {b : List Bit} (h : ∀ p, ¬StandsAt startPattern b p) :
    decodeBits b = .error { code := .noStartSentinel, index := 0, char := 0, src := false } := by
  unfold decodeBits
  rw [findStart_eq_none_iff.mpr h]

/-- With a start sentinel and no end sentinel aligned to it (42_decode.md R85). -/
theorem decodeBits_of_noEnd {b : List Bit} {start : Nat} (hstart : FirstAt startPattern b start)
    (h : ∀ p, ¬AlignedEnd b start p) :
    decodeBits b = .error { code := .noEndSentinel, index := start, char := 0, src := false } := by
  unfold decodeBits
  simp only [findStart_eq_some_iff.mpr hstart, findEnd_eq_none_iff.mpr h]

/-! ## What DECODE leaves -/

theorem DecodeLeaves.status_eq {s t : State} {out : List Byte} {st : BitVec 8} {idx : Nat} {ch : Byte}
    (h : DecodeLeaves s t out st idx ch) : t.status = st := by
  obtain ⟨-, -, -, hframe⟩ := h
  rw [hframe]

/-- DECODE of a written stream within capacity is the decoding of that stream. -/
theorem exec_decode_of_wrote {s : State} {b : List Bit} (hcap : s.bitsInLen.toNat ≤ s.params.bitsCap)
    (hw : Wrote s.mem.bitsIn s.bitsInLen b) : exec .decode s = .next (s.decodeInput b) := by
  change execDecode s = _
  rw [execDecode_eq, if_neg hcap.not_gt, inputBits_eq_some_iff.mpr hw]
  rfl

/-- Storing a text and completing leaves what R34 says, when both numbers fit their 32-bit registers. -/
theorem decodeLeaves_complete (s : State) (w : Working) {out : List Byte} {c : Completion}
    (hout : out.length < 2 ^ 32) (hindex : c.index < 2 ^ 32) :
    DecodeLeaves s ((({ s with work := w } : State).storeTxtOut out).complete c)
      out (completedStatus c) c.index c.char :=
  ⟨bufOfList_holdsExactly out, (BitVec.toNat_ofNat ..).trans (Nat.mod_eq_of_lt hout),
    (BitVec.toNat_ofNat ..).trans (Nat.mod_eq_of_lt hindex), rfl⟩

/-- A stream whose decoding fails leaves no text and the error's record (42_decode.md R93). -/
theorem exec_decode_of_error {s : State} {b : List Bit} {code : Code} {index : Nat} {char : Byte}
    (hcap : s.bitsInLen.toNat ≤ s.params.bitsCap) (hw : Wrote s.mem.bitsIn s.bitsInLen b)
    (herror : decodeBits b = .error { code := code, index := index, char := char, src := false })
    (hindex : index < 2 ^ 32) :
    ∃ t, exec .decode s = .next t ∧ DecodeLeaves s t [] (statusWord false false code.toBits) index char := by
  refine ⟨s.decodeInput b, exec_decode_of_wrote hcap hw, ?_⟩
  unfold State.decodeInput
  rw [herror]
  exact decodeLeaves_complete s (decodeWork b s.work)
    (c := { code := code, index := index, char := char, src := false }) (by decide) hindex

/-- A decoded text that fits is stored, and the command returns (42_decode.md R93). -/
theorem exec_decode_of_fits {s : State} {b : List Bit} {out : List Byte} (hparams : s.params.ok = true)
    (hcap : s.bitsInLen.toNat ≤ s.params.bitsCap) (hw : Wrote s.mem.bitsIn s.bitsInLen b)
    (hb : decodeBits b = .ok out) (hfit : out.length ≤ s.params.textCap) :
    ∃ t, exec .decode s = .next t ∧ DecodeLeaves s t out 0x00#8 0 0#8 := by
  obtain ⟨htext, -, -⟩ := params_ok_bounds hparams
  refine ⟨s.decodeInput b, exec_decode_of_wrote hcap hw, ?_⟩
  unfold State.decodeInput
  simp only [hb, if_neg hfit.not_gt]
  exact decodeLeaves_complete s (decodeWork b s.work) (c := .success) (hfit.trans_lt htext) (by decide)

/-- A decoded text longer than TEXT_CAP is not stored (42_decode.md R93). -/
theorem exec_decode_of_tooLong {s : State} {b : List Bit} {out : List Byte}
    (hcap : s.bitsInLen.toNat ≤ s.params.bitsCap) (hw : Wrote s.mem.bitsIn s.bitsInLen b)
    (hb : decodeBits b = .ok out) (hlong : s.params.textCap < out.length) :
    ∃ t, exec .decode s = .next t ∧ DecodeLeaves s t [] 0x07#8 0 0#8 := by
  refine ⟨s.decodeInput b, exec_decode_of_wrote hcap hw, ?_⟩
  unfold State.decodeInput
  simp only [hb, if_pos hlong]
  exact decodeLeaves_complete s (decodeWork b s.work) (c := .capacity false) (by decide) (by decide)

/-- A position inside a written stream fits ERR_INDEX. -/
theorem Wrote.lt_two_pow_of_le_length {α : Type} {buf : List (Nat × α)} {len : Word32} {vs : List α}
    (h : Wrote buf len vs) {i : Nat} (hi : i ≤ vs.length) : i < 2 ^ 32 := by
  obtain ⟨hlen, -⟩ := h
  exact (hlen ▸ hi).trans_lt len.isLt

/-- Settles O27: the search is `findFrom`, and without a position it ends the command. -/
theorem startSearchFindsTheFirstStartPattern : Obligations.StartSearchFindsTheFirstStartPattern := by
  refine ⟨startPattern_eq_frame, fun b p => findStart_eq_some_iff, fun s b hcap hw hnone => ?_⟩
  obtain ⟨t, ht, hleaves⟩ := exec_decode_of_error hcap hw (decodeBits_of_noStart hnone) (by decide)
  exact ⟨t, ht, by rw [hleaves.status_eq, statusCode_statusWord]; rfl⟩

/-- Settles O28: the loop answers the least aligned end, and without one it ends the command. -/
theorem endSearchFindsTheLeastAlignedEndPattern : Obligations.EndSearchFindsTheLeastAlignedEndPattern := by
  refine ⟨fun b start => ⟨fun p => findEnd_eq_some_iff, findEnd_eq_none_iff⟩, fun s b start hcap hw hstart hnone => ?_⟩
  obtain ⟨t, ht, hleaves⟩ := exec_decode_of_error hcap hw (decodeBits_of_noEnd hstart hnone)
    (hw.lt_two_pow_of_le_length hstart.le_length)
  exact ⟨t, ht, by rw [hleaves.status_eq, statusCode_statusWord]; rfl⟩

/-- Settles O33: a completion whose code is not OK stores the empty text. -/
theorem failedDecodeLeavesNoText : Obligations.FailedDecodeLeavesNoText := by
  intro s t hexec hcode
  obtain ⟨w, out, c, rfl, -, -, ⟨-, rfl⟩ | ⟨rfl, -⟩, -⟩ := execDecode_next hexec
  · exact ⟨rfl, fun _ => rfl⟩
  · exact absurd rfl hcode

end Sys2Proof.Machine

/-! The frames of DECODE: a valid 7-bit frame and its character determine each other, and with both sentinels found the
frame walk and the trailer decide what `decodeBits` answers (42_decode.md R86 to R92). -/

namespace Sys2Proof.Machine

/-! ## Values and their bits, characters and their frames -/

theorem bitsLsbFirst_succ (n v : Nat) : bitsLsbFirst (n + 1) v = v.testBit 0 :: bitsLsbFirst n (v / 2) := by
  simp [bitsLsbFirst, List.range_succ_eq_map, Nat.testBit_succ, Function.comp_def]

/-- The low `n` bits of a number are its value modulo `2 ^ n`. -/
theorem valueLsbFirst_bitsLsbFirst (n v : Nat) : valueLsbFirst (bitsLsbFirst n v) = v % 2 ^ n := by
  induction n generalizing v with
  | zero => simp [bitsLsbFirst, valueLsbFirst, Nat.mod_one]
  | succ n ih =>
    rw [bitsLsbFirst_succ, valueLsbFirst, ih, Nat.toNat_testBit, Nat.pow_succ', Nat.mod_mul]
    simp

/-- A bit sequence is the bits of its value. -/
theorem bitsLsbFirst_valueLsbFirst (d : List Bit) : bitsLsbFirst d.length (valueLsbFirst d) = d := by
  induction d with
  | nil => rfl
  | cons x xs ih =>
    have hlow : (x.toNat + 2 * valueLsbFirst xs).testBit 0 = x := by cases x <;> simp [Nat.testBit_zero]
    have hhigh : (x.toNat + 2 * valueLsbFirst xs) / 2 = valueLsbFirst xs := by
      cases x with
      | false => simp
      | true => rw [Bool.toNat_true]; omega
    rw [List.length_cons, valueLsbFirst, bitsLsbFirst_succ, hlow, hhigh, ih]

/-- The last bit of a sequence of odd population is the parity bit of those before it (41_encode.md R72). -/
theorem eq_parityBit_of_odd {d : List Bit} {x : Bit} (h : bitSum (d ++ [x]) % 2 = 1) : parityBit d = x := by
  simp only [bitSum_append, bitSum, Nat.add_zero] at h
  unfold parityBit parityAcc
  cases x <;> simp at h ⊢ <;> omega

/-- A valid frame is its six data bits and their parity bit (42_decode.md R88). -/
theorem withParity_take_of_odd {f : List Bit} (hlen : f.length = 7) (hodd : bitSum f % 2 = 1) :
    withParity (f.take 6) = f := by
  have hlast : f.take 6 ++ [f[6]] = f := by
    rw [List.take_concat_get', List.take_of_length_le hlen.le]
  have hparity : parityBit (f.take 6) = f[6] := eq_parityBit_of_odd (hlast.symm ▸ hodd)
  rw [withParity, hparity, hlast]

/-- Six data bits have a value below 64. -/
theorem valueLsbFirst_take_six_lt (f : List Bit) : valueLsbFirst (f.take 6) < 64 :=
  (valueLsbFirst_lt (f.take 6)).trans_le (Nat.pow_le_pow_right (by decide) (List.length_take_le 6 f))

theorem frameChar_toNat (f : List Bit) : (frameChar f).toNat = 32 + valueLsbFirst (f.take 6) := by
  have hlt := valueLsbFirst_take_six_lt f
  exact (BitVec.toNat_ofNat ..).trans (Nat.mod_eq_of_lt (by omega))

/-- Every decoded character lies in 32..95 (42_decode.md R95). -/
theorem frameChar_range (f : List Bit) : 32 ≤ (frameChar f).toNat ∧ (frameChar f).toNat ≤ 95 := by
  have hlt := valueLsbFirst_take_six_lt f
  rw [frameChar_toNat]
  omega

theorem rawValue_profile1_toNat (c : Byte) : (rawValue profile1 c).toNat = c.toNat - 32 := by
  simp only [rawValue, profile1]
  omega

theorem length_frame_profile1 (c : Byte) : (frame profile1 c).length = 7 := by
  rw [frame, length_withParity, length_dataBits]
  rfl

theorem take_frame_profile1 (c : Byte) : (frame profile1 c).take 6 = dataBits profile1 c :=
  List.take_left' (length_dataBits profile1 c)

/-- A valid frame is the Track1 frame of the character it decodes to (42_decode.md R87, R88). -/
theorem frame_frameChar {f : List Bit} (hlen : f.length = 7) (hodd : bitSum f % 2 = 1) :
    frame profile1 (frameChar f) = f := by
  have hwidth : (f.take 6).length = profile1.dataWidth := by rw [List.length_take, hlen]; rfl
  have hdata : dataBits profile1 (frameChar f) = f.take 6 := by
    rw [dataBits, rawValue_profile1_toNat, frameChar_toNat, Nat.add_sub_cancel_left, ← hwidth,
      bitsLsbFirst_valueLsbFirst]
  rw [frame, hdata, withParity_take_of_odd hlen hodd]

/-- A character in 32..95 is read back from its Track1 frame (42_decode.md R96). -/
theorem frameChar_frame {c : Byte} (hlo : 32 ≤ c.toNat) (hhi : c.toNat ≤ 95) : frameChar (frame profile1 c) = c := by
  refine BitVec.eq_of_toNat_eq ?_
  rw [frameChar_toNat, take_frame_profile1, dataBits, valueLsbFirst_bitsLsbFirst, rawValue_profile1_toNat]
  have hmod : (c.toNat - 32) % 2 ^ profile1.dataWidth = c.toNat - 32 := Nat.mod_eq_of_lt (by
    show c.toNat - 32 < 64
    omega)
  omega

/-! ## The frame walk -/

/-- The characters of the `n` 7-bit frames from `start` on (42_decode.md R87, R89). -/
def streamText (b : List Bit) (start n : Nat) : List Byte :=
  (List.range n).map fun i => frameChar (slice b (start + 7 * i) 7)

@[simp] theorem length_streamText (b : List Bit) (start n : Nat) : (streamText b start n).length = n := by
  simp [streamText]

theorem getElem?_streamText {b : List Bit} {start n i : Nat} (hi : i < n) :
    (streamText b start n)[i]? = some (frameChar (slice b (start + 7 * i) 7)) := by
  simp [streamText, hi]

theorem allLegal_streamText (b : List Bit) (start n : Nat) : AllLegal profile1 (streamText b start n) := by
  intro c hc
  obtain ⟨i, -, rfl⟩ := List.mem_map.mp hc
  exact frameChar_range _

section Walk

variable {b : List Bit} {start k : Nat}

/-- The walk to the frame `k` places after the start sentinel looks at `k + 1` frames. -/
theorem decodeLoop_eq (b : List Bit) (start k : Nat) :
    decodeLoop b start (start + 7 * k) = walkFrames b (zeros 6) 1 start start (k + 1) := by
  rw [decodeLoop, decodeWidth, Nat.add_sub_cancel_left, Nat.mul_div_cancel_left k (by decide)]

/-- The walk over valid frames, in terms of the stream (42_decode.md R87, R89). -/
theorem decodeLoop_of_valid (hvalid : ∀ i ≤ k, bitSum (slice b (start + 7 * i) 7) % 2 = 1) :
    (decodeLoop b start (start + 7 * k)).bad = none ∧
    (decodeLoop b start (start + 7 * k)).out = streamText b start (k + 1) ∧
    (decodeLoop b start (start + 7 * k)).lrcAcc = streamLrc b start (k + 1) := by
  obtain ⟨hbad, hout, hlrc⟩ := walkFrames_valid b (k + 1) (zeros 6) 1 start start
    fun i hi => hvalid i (Nat.le_of_lt_succ hi)
  rw [decodeLoop_eq]
  refine ⟨hbad, hout, ?_⟩
  simp only [hlrc, streamLrc, take_slice (show 6 ≤ 7 by decide)]

/-- Where the end pattern stands `k` frames after the start, all frames before it lie inside the stream. -/
theorem FirstAlignedEnd.le_length (hend : FirstAlignedEnd b start (start + 7 * k)) :
    start + 7 * (k + 1) ≤ b.length := by
  obtain ⟨⟨-, ⟨hinside, -⟩, -⟩, -⟩ := hend
  have hlen : endPattern.length = 7 := rfl
  omega

/-- An end sentinel stands a whole number of frames after the start (42_decode.md R85). -/
theorem FirstAlignedEnd.exists_eq {stop : Nat} (hend : FirstAlignedEnd b start stop) : ∃ k, stop = start + 7 * k := by
  obtain ⟨⟨hle, -, haligned⟩, -⟩ := hend
  exact ⟨(stop - start) / 7, by omega⟩

theorem length_streamLrc (hinside : start + 7 * k ≤ b.length) : (streamLrc b start k).length = 6 := by
  refine length_foldl_xorColumns (fun d hd => ?_) (by simp [zeros])
  obtain ⟨i, hi, rfl⟩ := List.mem_map.mp hd
  have hik : i < k := List.mem_range.mp hi
  exact (length_slice_eq_iff (by decide)).mpr (by omega)

/-- With both sentinels, the walk ends at the first invalid frame (42_decode.md R88). -/
theorem decodeBits_of_badFrame {m : Nat} (hstart : FirstAt startPattern b start)
    (hend : FirstAlignedEnd b start (start + 7 * k)) (hm : m ≤ k)
    (hvalid : ∀ i < m, bitSum (slice b (start + 7 * i) 7) % 2 = 1)
    (hbad : bitSum (slice b (start + 7 * m) 7) % 2 = 0) :
    decodeBits b = .error { code := .parityError, index := start + 7 * m,
                            char := frameChar (slice b (start + 7 * m) 7), src := false } := by
  obtain ⟨hchar, hj⟩ := walkFrames_invalid b (k + 1) m (zeros 6) 1 start start (Nat.lt_succ_of_le hm) hvalid hbad
  unfold decodeBits
  simp only [findStart_eq_some_iff.mpr hstart, findEnd_eq_some_iff.mpr hend, decodeLoop_eq, hchar, hj]

/-- With both sentinels and valid frames, the trailer decides; one cut short is a wrong one (42_decode.md R90). -/
theorem decodeBits_of_valid (hstart : FirstAt startPattern b start)
    (hend : FirstAlignedEnd b start (start + 7 * k))
    (hvalid : ∀ i ≤ k, bitSum (slice b (start + 7 * i) 7) % 2 = 1) :
    decodeBits b =
      if slice b (start + 7 * (k + 1)) 7 = withParity (streamLrc b start (k + 1)) then
        .ok (streamText b start (k + 1))
      else .error { code := .lrcMismatch, index := start + 7 * (k + 1), char := 0, src := false } := by
  obtain ⟨hbad, hout, hlrc⟩ := decodeLoop_of_valid hvalid
  have htrailer : start + 7 * k + decodeWidth = start + 7 * (k + 1) := by rw [decodeWidth]; omega
  unfold decodeBits
  simp only [findStart_eq_some_iff.mpr hstart, findEnd_eq_some_iff.mpr hend, hbad, hout, hlrc, htrailer,
    trailerMatches, beq_iff_eq]
  by_cases hcut : start + 7 * (k + 1) + 7 ≤ b.length
  case pos => exact if_neg hcut.not_gt
  case neg =>
    have hne : slice b (start + 7 * (k + 1)) 7 ≠ withParity (streamLrc b start (k + 1)) := by
      intro heq
      refine hcut ((length_slice_eq_iff (by decide)).mp ?_)
      rw [heq, length_withParity, length_streamLrc hend.le_length]
    rw [if_neg hne]
    exact if_pos (Nat.lt_of_not_le hcut)

/-- With both sentinels, decoding succeeds exactly on valid frames with their trailer (42_decode.md R88, R90). -/
theorem decodeBits_eq_ok_iff_of_sentinels {out : List Byte} (hstart : FirstAt startPattern b start)
    (hend : FirstAlignedEnd b start (start + 7 * k)) :
    decodeBits b = .ok out ↔
      (∀ i ≤ k, bitSum (slice b (start + 7 * i) 7) % 2 = 1) ∧
      slice b (start + 7 * (k + 1)) 7 = withParity (streamLrc b start (k + 1)) ∧ out = streamText b start (k + 1) := by
  by_cases hvalid : ∀ i ≤ k, bitSum (slice b (start + 7 * i) 7) % 2 = 1
  case pos =>
    rw [decodeBits_of_valid hstart hend hvalid]
    by_cases htrailer : slice b (start + 7 * (k + 1)) 7 = withParity (streamLrc b start (k + 1))
    · rw [if_pos htrailer, Except.ok.injEq]
      exact ⟨fun h => ⟨hvalid, htrailer, h.symm⟩, fun ⟨_, _, h⟩ => h.symm⟩
    · rw [if_neg htrailer]
      exact ⟨fun h => (nomatch h), fun ⟨_, h, _⟩ => absurd h htrailer⟩
  case neg =>
    obtain ⟨i, hi⟩ : ∃ i, i ≤ k ∧ bitSum (slice b (start + 7 * i) 7) % 2 = 0 := by
      simpa [Nat.mod_two_ne_one] using hvalid
    obtain ⟨m, hleast⟩ := exists_isLeast (P := fun i => i ≤ k ∧ bitSum (slice b (start + 7 * i) 7) % 2 = 0) hi
    obtain ⟨⟨hm, hbad⟩, hbefore⟩ := isLeast_setOf_iff.mp hleast
    have hodd : ∀ i < m, bitSum (slice b (start + 7 * i) 7) % 2 = 1 := fun i him =>
      Nat.mod_two_ne_zero.mp fun h => hbefore i him ⟨him.le.trans hm, h⟩
    rw [decodeBits_of_badFrame hstart hend hm hodd hbad]
    exact ⟨fun h => (nomatch h), fun ⟨h, _⟩ => absurd h hvalid⟩

end Walk

/-- A stream that decodes has both sentinels (42_decode.md R84, R85). -/
theorem exists_sentinels_of_decodeBits {b : List Bit} {out : List Byte} (h : decodeBits b = .ok out) :
    ∃ start k, FirstAt startPattern b start ∧ FirstAlignedEnd b start (start + 7 * k) := by
  cases hs : findStart b with
  | none =>
    rw [decodeBits_of_noStart (findStart_eq_none_iff.mp hs)] at h
    cases h
  | some start =>
    have hstart := findStart_eq_some_iff.mp hs
    cases he : findEnd b start with
    | none =>
      rw [decodeBits_of_noEnd hstart (findEnd_eq_none_iff.mp he)] at h
      cases h
    | some stop =>
      have hend := findEnd_eq_some_iff.mp he
      obtain ⟨k, rfl⟩ := hend.exists_eq
      exact ⟨start, k, hstart, hend⟩

end Sys2Proof.Machine

/-! DECODE and the framed texts: a stream decodes exactly when it carries a framed `%...?` text from its first start
sentinel on, so that encoding and decoding are inverse on those texts (42_decode.md R84 to R96). -/

namespace Sys2Proof.Machine

/-! ## Track texts by their positions -/

section TrackTexts

variable {text : List Byte}

theorem frame_profile1_inj {c d : Byte} (hc : 32 ≤ c.toNat ∧ c.toNat ≤ 95) (hd : 32 ≤ d.toNat ∧ d.toNat ≤ 95)
    (h : frame profile1 c = frame profile1 d) : c = d := by
  obtain ⟨hc1, hc2⟩ := hc
  obtain ⟨hd1, hd2⟩ := hd
  rw [← frameChar_frame hc1 hc2, h, frameChar_frame hd1 hd2]

theorem TrackText.allLegal (h : TrackText text) : AllLegal profile1 text := by
  obtain ⟨body, rfl, hbody⟩ := h
  intro c hc
  rw [List.mem_cons, List.mem_append, List.mem_singleton] at hc
  obtain rfl | hc | rfl := hc
  · decide
  · obtain ⟨hlo, hhi, -⟩ := hbody c hc
    exact ⟨hlo, hhi⟩
  · decide

theorem TrackText.selects (h : TrackText text) : Selects text profile1 := by
  obtain ⟨body, rfl, -⟩ := h
  exact ⟨37#8, body ++ [63#8], rfl, .inl ⟨rfl, rfl⟩⟩

theorem TrackText.two_le_length (h : TrackText text) : 2 ≤ text.length := by
  obtain ⟨body, rfl, -⟩ := h
  simp

/-- A track text by its positions: `'%'` at the first, `'?'` at the last and at no other (42_decode.md R95, R96). -/
theorem trackText_iff_getElem? {k : Nat} (hlen : text.length = k + 1) (hlegal : AllLegal profile1 text) :
    TrackText text ↔ text[0]? = some 37#8 ∧ text[k]? = some 63#8 ∧ ∀ i < k, text[i]? ≠ some 63#8 := by
  constructor
  · rintro ⟨body, rfl, hbody⟩
    obtain rfl : k = body.length + 1 := by simpa using hlen.symm
    refine ⟨rfl, by simp, fun i hi => ?_⟩
    cases i with
    | zero => simp
    | succ i =>
      have hi : i < body.length := by omega
      obtain ⟨-, -, hne⟩ := hbody body[i] (List.getElem_mem hi)
      rw [List.getElem?_cons_succ, List.getElem?_append_left hi, List.getElem?_eq_getElem hi]
      exact fun h => hne (Option.some.inj h)
  · rintro ⟨hfirst, hlast, hbody⟩
    cases text with
    | nil => cases hfirst
    | cons c rest =>
      obtain rfl : c = 37#8 := by simpa using hfirst
      obtain rfl | ⟨body, d, rfl⟩ := rest.eq_nil_or_concat'
      · obtain rfl : k = 0 := by simpa using hlen.symm
        simp at hlast
      · obtain rfl : k = body.length + 1 := by simpa using hlen.symm
        obtain rfl : d = 63#8 := by simpa using hlast
        refine ⟨body, by simp, fun c hc => ?_⟩
        obtain ⟨i, hi, rfl⟩ := List.getElem_of_mem hc
        obtain ⟨hlo, hhi⟩ := hlegal body[i] (by simp)
        refine ⟨hlo, hhi, fun h => hbody (i + 1) (by omega) ?_⟩
        rw [List.getElem?_cons_succ, List.getElem?_append_left hi, List.getElem?_eq_getElem hi, h]

end TrackTexts

/-! ## The frames of a text in a stream -/

/-- From `start` on stand the Track1 frames of a text (42_decode.md R87). -/
def CarriesFrames (b : List Bit) (start : Nat) (text : List Byte) : Prop :=
  ∀ i c, text[i]? = some c → slice b (start + 7 * i) 7 = frame profile1 c

/-- Pieces of one width that stand one after the other are one slice. -/
theorem slice_eq_flatMap {α : Type} {f : α → List Bit} {n : Nat} {b : List Bit} {i : Nat} {xs : List α}
    (h : ∀ j x, xs[j]? = some x → slice b (i + n * j) n = f x) : slice b i (n * xs.length) = xs.flatMap f := by
  induction xs generalizing i with
  | nil => simp [slice]
  | cons x xs ih =>
    have hfirst : slice b i n = f x := by simpa using h 0 x rfl
    have hrest : slice b (i + n) (n * xs.length) = xs.flatMap f := ih fun j y hy => by
      rw [← h (j + 1) y hy, Nat.mul_succ, Nat.add_assoc, Nat.add_comm n]
    rw [List.length_cons, Nat.mul_succ, Nat.add_comm, slice_add, hfirst, hrest, List.flatMap_cons]

section Frames

variable {b : List Bit} {start k : Nat} {text : List Byte}

theorem length_framesOf_profile1 (text : List Byte) : (framesOf profile1 text).length = 7 * text.length := by
  rw [framesOf, List.length_flatMap, List.map_congr_left fun c _ => length_frame_profile1 c]
  simp [Nat.mul_comm]

/-- The stream of `DecodesTo`, frame by frame. -/
theorem slice_eq_framed_iff : slice b start (7 * (text.length + 1)) =
      framesOf profile1 text ++ withParity (lrcOf profile1 text) ↔
    CarriesFrames b start text ∧ slice b (start + 7 * text.length) 7 = withParity (lrcOf profile1 text) := by
  constructor
  · intro h
    constructor
    · intro i c hc
      have hi : i < text.length := (List.getElem?_eq_some_iff.mp hc).1
      rw [← slice_slice (m := 7 * (text.length + 1)) (by omega), h, Nat.mul_comm]
      exact slice_flatMap (fun d _ => length_frame_profile1 d) _ hc
    · have htrailer : (withParity (lrcOf profile1 text)).length = 7 := by
        rw [length_withParity, length_lrcOf]
        rfl
      have hskip := slice_append_left (framesOf profile1 text) (withParity (lrcOf profile1 text)) 0 7
      rw [Nat.add_zero, length_framesOf_profile1] at hskip
      rw [← slice_slice (m := 7 * (text.length + 1)) (by omega), h, hskip, slice, List.drop_zero,
        List.take_of_length_le htrailer.le]
  · rintro ⟨hframes, htrailer⟩
    rw [Nat.mul_succ, slice_add, slice_eq_flatMap hframes, htrailer, framesOf]

theorem CarriesFrames.odd (h : CarriesFrames b start text) (hlen : text.length = k + 1) :
    ∀ i ≤ k, bitSum (slice b (start + 7 * i) 7) % 2 = 1 := by
  intro i hi
  rw [h i text[i] (List.getElem?_eq_getElem (by omega))]
  exact bitSum_withParity_odd _

/-- The accumulator over the frames of a text is the text's (42_decode.md R89; 41_encode.md R74). -/
theorem CarriesFrames.streamLrc_eq (h : CarriesFrames b start text) :
    streamLrc b start text.length = lrcOf profile1 text := by
  have hrows : (List.range text.length).map (fun i => slice b (start + 7 * i) 6) = text.map (dataBits profile1) := by
    refine List.ext_getElem (by simp) fun i hi _ => ?_
    have hi : i < text.length := by simpa using hi
    rw [List.getElem_map, List.getElem_map, List.getElem_range, ← take_slice (show 6 ≤ 7 by decide),
      h i text[i] (List.getElem?_eq_getElem hi), take_frame_profile1]
  rw [streamLrc, hrows]
  rfl

/-- The frames of a legal text decode to it. -/
theorem CarriesFrames.streamText_eq (h : CarriesFrames b start text) (hlegal : AllLegal profile1 text) :
    streamText b start text.length = text := by
  refine List.ext_getElem (by simp) fun i _ hi => ?_
  obtain ⟨hlo, hhi⟩ := hlegal text[i] (List.getElem_mem hi)
  simp only [streamText, List.getElem_map, List.getElem_range, h i text[i] (List.getElem?_eq_getElem hi)]
  exact frameChar_frame hlo hhi

/-- Valid frames are the frames of the text they decode to (42_decode.md R87, R88). -/
theorem carriesFrames_streamText (hinside : start + 7 * k ≤ b.length)
    (hvalid : ∀ i < k, bitSum (slice b (start + 7 * i) 7) % 2 = 1) :
    CarriesFrames b start (streamText b start k) := by
  intro i c hc
  have hi : i < k := by simpa using (List.getElem?_eq_some_iff.mp hc).1
  obtain rfl : frameChar (slice b (start + 7 * i) 7) = c := Option.some.inj ((getElem?_streamText hi).symm.trans hc)
  exact (frame_frameChar ((length_slice_eq_iff (by decide)).mpr (by omega)) (hvalid i hi)).symm

/-- Among the frames of a legal text those of `'?'` are the aligned end sentinels (42_decode.md R85). -/
theorem CarriesFrames.alignedEnd_iff (h : CarriesFrames b start text) (hlegal : AllLegal profile1 text) {i : Nat}
    (hi : i < text.length) : AlignedEnd b start (start + 7 * i) ↔ text[i]? = some 63#8 := by
  have hframe := h i text[i] (List.getElem?_eq_getElem hi)
  have haligned : AlignedEnd b start (start + 7 * i) ↔ StandsAt endPattern b (start + 7 * i) :=
    ⟨fun ⟨_, hs, _⟩ => hs, fun hs => ⟨by omega, hs, by omega⟩⟩
  rw [haligned, standsAt_endPattern_iff, hframe, endPattern_eq_frame, List.getElem?_eq_getElem hi, Option.some.injEq]
  exact ⟨frame_profile1_inj (hlegal _ (List.getElem_mem hi)) (by decide), fun hc => by rw [hc]⟩

theorem CarriesFrames.startsWith_iff (h : CarriesFrames b start text) (hlegal : AllLegal profile1 text)
    (hlen : 0 < text.length) : StandsAt startPattern b start ↔ text[0]? = some 37#8 := by
  have hframe : slice b start 7 = frame profile1 text[0] := h 0 text[0] (List.getElem?_eq_getElem hlen)
  rw [standsAt_startPattern_iff, hframe, startPattern_eq_frame, List.getElem?_eq_getElem hlen, Option.some.injEq]
  exact ⟨frame_profile1_inj (hlegal _ (List.getElem_mem hlen)) (by decide), fun hc => by rw [hc]⟩

/-- The least aligned end sentinel is the least among the frames' positions. -/
theorem firstAlignedEnd_iff_frames : FirstAlignedEnd b start (start + 7 * k) ↔
    AlignedEnd b start (start + 7 * k) ∧ ∀ i < k, ¬AlignedEnd b start (start + 7 * i) := by
  refine and_congr_right fun _ => ⟨fun h i hi => h _ (by omega), fun h q hq hend => ?_⟩
  obtain ⟨hle, hstands, haligned⟩ := hend
  obtain ⟨i, rfl⟩ : ∃ i, q = start + 7 * i := ⟨(q - start) / 7, by omega⟩
  exact h i (by omega) ⟨hle, hstands, haligned⟩

/-- A text whose frames begin with the start sentinel is a track text exactly when its last frame is the first aligned
end sentinel (42_decode.md R85, R95, R96). -/
theorem CarriesFrames.trackText_iff (h : CarriesFrames b start text) (hlegal : AllLegal profile1 text)
    (hlen : text.length = k + 1) (hstart : StandsAt startPattern b start) :
    TrackText text ↔ FirstAlignedEnd b start (start + 7 * k) := by
  rw [trackText_iff_getElem? hlen hlegal, firstAlignedEnd_iff_frames, ← h.alignedEnd_iff hlegal (by omega),
    and_iff_right ((h.startsWith_iff hlegal (by omega)).mp hstart)]
  exact and_congr_right fun _ => forall₂_congr fun i hi => not_congr (h.alignedEnd_iff hlegal (by omega)).symm

end Frames

/-! ## The streams that decode -/

theorem decodesTo_of_decodeBits {b : List Bit} {out : List Byte} (h : decodeBits b = .ok out) : DecodesTo b out := by
  obtain ⟨start, k, hstart, hend⟩ := exists_sentinels_of_decodeBits h
  obtain ⟨hvalid, htrailer, hout⟩ := (decodeBits_eq_ok_iff_of_sentinels hstart hend).mp h
  have hlen : out.length = k + 1 := by rw [hout, length_streamText]
  have hlegal : AllLegal profile1 out := hout ▸ allLegal_streamText b start (k + 1)
  have hframes : CarriesFrames b start out :=
    hout ▸ carriesFrames_streamText hend.le_length fun i hi => hvalid i (Nat.le_of_lt_succ hi)
  refine ⟨start, hstart, (hframes.trackText_iff hlegal hlen hstart.1).mpr hend, slice_eq_framed_iff.mpr ⟨hframes, ?_⟩⟩
  rw [← hframes.streamLrc_eq, hlen, htrailer]

theorem decodeBits_of_decodesTo {b : List Bit} {out : List Byte} (h : DecodesTo b out) : decodeBits b = .ok out := by
  obtain ⟨start, hstart, htext, hslice⟩ := h
  obtain ⟨hframes, htrailer⟩ := slice_eq_framed_iff.mp hslice
  obtain ⟨k, hlen⟩ : ∃ k, out.length = k + 1 := ⟨out.length - 1, by have := htext.two_le_length; omega⟩
  have hend := (hframes.trackText_iff htext.allLegal hlen hstart.1).mp htext
  refine (decodeBits_eq_ok_iff_of_sentinels hstart hend).mpr ⟨hframes.odd hlen, ?_, ?_⟩
  · rw [← hlen, htrailer, hframes.streamLrc_eq]
  · rw [← hlen, hframes.streamText_eq htext.allLegal]

/-- Settles O29: with both sentinels found, valid frames and their trailer are the frames of a track text and its LRC. -/
theorem decodeAcceptsExactlyTheFramedTexts : Obligations.DecodeAcceptsExactlyTheFramedTexts :=
  fun _ _ => ⟨decodesTo_of_decodeBits, decodeBits_of_decodesTo⟩

/-! ## Padding and trailing bits -/

/-- The start pattern begins with a 1. -/
theorem not_standsAt_startPattern_of_zero {b : List Bit} {p : Nat} (h : b[p]? = some false) :
    ¬StandsAt startPattern b p := by
  rintro ⟨-, hslice⟩
  have hfirst : (slice b p startPattern.length)[0]? = b[p]? := getElem?_slice (by decide)
  rw [hslice, h] at hfirst
  exact absurd hfirst (by decide)

/-- Behind `n` zeros, and before any tail, a slice of a stream stands `n` positions further on. -/
theorem slice_padded (n : Nat) {b : List Bit} (tail : List Bit) {i m : Nat} (h : i + m ≤ b.length) :
    slice (zeros n ++ b ++ tail) (n + i) m = slice b i m := by
  have hn : (zeros n).length = n := List.length_replicate
  rw [List.append_assoc, ← congrArg (· + i) hn, slice_append_left, slice_append_of_le tail h]

theorem firstAt_startPattern_padded {b : List Bit} {start : Nat} (h : FirstAt startPattern b start) (n : Nat)
    (tail : List Bit) : FirstAt startPattern (zeros n ++ b ++ tail) (n + start) := by
  obtain ⟨hstands, hfirst⟩ := h
  have hlen : startPattern.length = 7 := rfl
  have hinside : start + 7 ≤ b.length := hstands.1
  refine ⟨standsAt_startPattern_iff.mpr ?_, fun q hq => ?_⟩
  · rw [slice_padded n tail hinside]
    exact standsAt_startPattern_iff.mp hstands
  · obtain hqn | hnq := Nat.lt_or_ge q n
    · refine not_standsAt_startPattern_of_zero ?_
      rw [List.append_assoc, List.getElem?_append_left (by simpa [zeros] using hqn)]
      simp [zeros, hqn]
    · obtain ⟨r, rfl⟩ : ∃ r, q = n + r := ⟨q - n, by omega⟩
      rw [standsAt_startPattern_iff, slice_padded n tail (by omega), ← standsAt_startPattern_iff]
      exact hfirst r (by omega)

/-- Neither zeros in front nor bits behind the trailer show in what a stream decodes to (42_decode.md R91). -/
theorem DecodesTo.padded {b : List Bit} {out : List Byte} (h : DecodesTo b out) (n : Nat) (tail : List Bit) :
    DecodesTo (zeros n ++ b ++ tail) out := by
  obtain ⟨start, hstart, htext, hslice⟩ := h
  have hinside : start + 7 * (out.length + 1) ≤ b.length := by
    refine (length_slice_eq_iff (by omega)).mp ?_
    rw [hslice, List.length_append, length_framesOf_profile1, length_withParity, length_lrcOf]
    rfl
  exact ⟨n + start, firstAt_startPattern_padded hstart n tail, htext, (slice_padded n tail hinside).trans hslice⟩

/-- Settles O35, on the framed text that the stream carries. -/
theorem paddingAndTrailingBitsDoNotAffectTheText : Obligations.PaddingAndTrailingBitsDoNotAffectTheText :=
  fun _ tail _ n h => decodeBits_of_decodesTo ((decodesTo_of_decodeBits h).padded n tail)

/-! ## The round trip -/

/-- A track text's framing without padding begins with its start sentinel. -/
theorem TrackText.decodesTo_framed_zero {text : List Byte} (h : TrackText text) :
    DecodesTo (framed profile1 text 0) text := by
  have hslice : slice (framed profile1 text 0) 0 (7 * (text.length + 1)) =
      framesOf profile1 text ++ withParity (lrcOf profile1 text) := by
    have hlen : (framed profile1 text 0).length = 7 * (text.length + 1) := by
      rw [length_framed h.selects, Nat.mul_zero, Nat.zero_add, Nat.mul_comm]
      rfl
    rw [slice, List.drop_zero, List.take_of_length_le hlen.le]
    simp [framed, zeros]
  obtain ⟨hframes, -⟩ := slice_eq_framed_iff.mp hslice
  have hpos : 0 < text.length := by have := h.two_le_length; omega
  have hfirst : text[0]? = some 37#8 := by
    obtain ⟨body, rfl, -⟩ := h
    rfl
  have hstands := (hframes.startsWith_iff h.allLegal hpos).mpr hfirst
  exact ⟨0, ⟨hstands, fun q hq => absurd hq (Nat.not_lt_zero q)⟩, h, hslice⟩

/-- The encoding of a track text decodes to it, whatever the padding (42_decode.md R96). -/
theorem TrackText.decodesTo_framed {text : List Byte} (h : TrackText text) (pad : Nat) :
    DecodesTo (framed profile1 text pad) text := by
  have hframed : framed profile1 text pad = zeros pad ++ framed profile1 text 0 ++ zeros pad := by
    simp [framed, zeros]
  exact hframed ▸ h.decodesTo_framed_zero.padded pad (zeros pad)

/-- Settles O36: only track texts decode, and a track text's encoding decodes to it. -/
theorem roundTripHoldsExactlyForTrackTexts : Obligations.RoundTripHoldsExactlyForTrackTexts := by
  intro text pad
  constructor
  · rintro ⟨bits, p, -, hdecode⟩
    obtain ⟨_, _, htext, _⟩ := decodesTo_of_decodeBits hdecode
    exact htext
  · intro htext
    exact ⟨framed profile1 text pad, profile1, encodeText_legal htext.selects htext.allLegal pad,
      decodeBits_of_decodesTo (htext.decodesTo_framed pad)⟩

/-! ## DECODE on the machine -/

/-- Settles O30: the stream decodes to the text, which fits TXT_OUT. -/
theorem decodeStoresTheDecodedText : Obligations.DecodeStoresTheDecodedText :=
  fun _ _ _ hparams hcap hw hto hfit => exec_decode_of_fits hparams hcap hw (decodeBits_of_decodesTo hto) hfit

/-- Settles O32: the length is checked before BITS_IN is read, and the text's length after it is decoded. -/
theorem decodeRejectsWhatExceedsCapacity : Obligations.DecodeRejectsWhatExceedsCapacity := by
  refine fun s => ⟨fun hlong => ?_, fun b out hcap hw hto hlong => ?_⟩
  · refine ⟨s.raise .txtOut (.capacity false), (execDecode_eq s).trans (if_pos hlong), ?_⟩
    exact decodeLeaves_complete s s.work (c := .capacity false) (by decide) (by decide)
  · exact exec_decode_of_tooLong hcap hw (decodeBits_of_decodesTo hto) hlong

/-- Settles O31: the four steps of `decodeBits`, each with the completion it ends with. -/
theorem decodeReportsTheFirstFailingStep : Obligations.DecodeReportsTheFirstFailingStep := by
  intro s b hcap hw
  refine ⟨fun hnone => ?_, fun start hstart => ⟨fun hnone => ?_, fun stop hend => ?_⟩⟩
  · exact exec_decode_of_error hcap hw (decodeBits_of_noStart hnone) (by decide)
  · exact exec_decode_of_error hcap hw (decodeBits_of_noEnd hstart hnone)
      (hw.lt_two_pow_of_le_length hstart.le_length)
  · obtain ⟨k, rfl⟩ := hend.exists_eq
    have hinside := hend.le_length
    refine ⟨fun m hm hvalid hbad => ?_, fun hvalid htrailer => ?_⟩
    · have hchar : frameChar (slice b (start + 7 * m) 7) =
          BitVec.ofNat 8 (32 + valueLsbFirst (slice b (start + 7 * m) 6)) := by
        rw [frameChar, take_slice (by decide)]
      rw [← hchar]
      exact exec_decode_of_error hcap hw (decodeBits_of_badFrame hstart hend (by omega) hvalid hbad)
        (hw.lt_two_pow_of_le_length (show start + 7 * m ≤ b.length by omega))
    · have hcount : (start + 7 * k - start) / 7 = k := by omega
      rw [hcount] at htrailer
      have herror := (decodeBits_of_valid hstart hend fun i hi => hvalid i (by omega)).trans (if_neg htrailer)
      exact exec_decode_of_error hcap hw herror (hw.lt_two_pow_of_le_length hinside)

theorem Code.toBits_eq_zero_iff (code : Code) : code.toBits = 0#4 ↔ code = .ok := by
  cases code <;> decide

/-- A DECODE that completes with OK has stored what the stream decodes to, and its length. -/
theorem exec_decode_ok {s t : State} {b : List Bit} (hparams : s.params.ok = true)
    (hw : Wrote s.mem.bitsIn s.bitsInLen b) (hexec : exec .decode s = .next t) (hcode : statusCode t.status = 0#4) :
    ∃ out, decodeBits b = .ok out ∧ HoldsExactly t.mem.txtOut out ∧ t.txtOutLen.toNat = out.length := by
  obtain ⟨w, out, c, rfl, hfit, -, ⟨hc, -⟩ | ⟨-, b', hb', hdecode⟩, -⟩ := execDecode_next hexec
  · rw [State.complete_status, statusCode_completedStatus, Code.toBits_eq_zero_iff] at hcode
    exact absurd hcode hc
  · obtain rfl : b = b' := Option.some.inj ((inputBits_eq_some_iff.mpr hw).symm.trans hb')
    obtain ⟨htext, -, -⟩ := params_ok_bounds hparams
    exact ⟨out, hdecode, bufOfList_holdsExactly out,
      (BitVec.toNat_ofNat ..).trans (Nat.mod_eq_of_lt (hfit.trans_lt htext))⟩

/-- Settles O34: the decoded text is a track text with a character for each frame. -/
theorem decodedTextHasTheStatedShape : Obligations.DecodedTextHasTheStatedShape := by
  intro s t b start stop hparams hw hexec hcode hstart hend
  obtain ⟨out, hdecode, hholds, hreg⟩ := exec_decode_ok hparams hw hexec hcode
  obtain ⟨k, rfl⟩ := hend.exists_eq
  obtain ⟨-, -, hout⟩ := (decodeBits_eq_ok_iff_of_sentinels hstart hend).mp hdecode
  have hlen : out.length = k + 1 := by rw [hout, length_streamText]
  obtain ⟨_, _, htext, _⟩ := decodesTo_of_decodeBits hdecode
  obtain ⟨hfirst, hlast, -⟩ := (trackText_iff_getElem? hlen htext.allLegal).mp htext
  rw [hreg]
  refine ⟨by omega, htext.two_le_length, (hholds 0).trans hfirst, ?_, fun i hi => ?_⟩
  · rw [hlen, Nat.add_sub_cancel]
    exact (hholds k).trans hlast
  · exact ⟨out[i], (hholds i).trans (List.getElem?_eq_getElem hi), htext.allLegal _ (List.getElem_mem hi)⟩

theorem EncodeLeaves.status_eq {s t : State} {bits : List Bit} {prof : Word32} {st : BitVec 8} {idx : Nat} {ch : Byte}
    (h : EncodeLeaves s t bits prof st idx ch) : t.status = st := by
  obtain ⟨-, -, -, hframe⟩ := h
  rw [hframe]

/-- An ENCODE of a track text that completes with OK found the text within TEXT_CAP and its bitstream within BITS_CAP
(41_encode.md R80). -/
theorem TrackText.exec_encode_ok {s t : State} {text : List Byte} (h : TrackText text) (hparams : s.params.ok = true)
    (hw : Wrote s.mem.txtA s.txtALen text) (hexec : exec .encode s = .next t) (hcode : statusCode t.status = 0#4) :
    s.txtALen.toNat ≤ s.params.textCap ∧ (framed profile1 text s.pad.toNat).length ≤ s.params.bitsCap ∧
    EncodeLeaves s t (framed profile1 text s.pad.toNat) (packProf profile1) 0x00#8 0 0#8 := by
  have hnot7 {bits : List Bit} {prof : Word32} {idx : Nat} {ch : Byte}
      (hleaves : ∃ t', exec .encode s = .next t' ∧ EncodeLeaves s t' bits prof 0x07#8 idx ch) : False := by
    obtain ⟨t', ht', hleaves⟩ := hleaves
    obtain rfl : t = t' := Host.Outcome.next.inj (hexec.symm.trans ht')
    rw [hleaves.status_eq] at hcode
    exact absurd hcode (by decide)
  have hcap : s.txtALen.toNat ≤ s.params.textCap :=
    Nat.le_of_not_lt fun hlong => hnot7 ((encodeRejectsTooLongAndEmptyText s).1 hlong)
  have hfit : (framed profile1 text s.pad.toNat).length ≤ s.params.bitsCap := Nat.le_of_not_lt fun hlong =>
    hnot7 (encodeRejectsATooLongBitstream s text profile1 hcap hw h.selects h.allLegal hlong)
  obtain ⟨t', ht', hleaves⟩ := encodeStoresTheFramedText s text profile1 hparams hcap hw h.selects h.allLegal hfit
  obtain rfl : t = t' := Host.Outcome.next.inj (hexec.symm.trans ht')
  exact ⟨hcap, hfit, hleaves⟩

/-- Settles O37: the copy is the framed text, which decodes to the text of TXT_A. -/
theorem decodeOfTheCopiedEncodingRestoresTheText : Obligations.DecodeOfTheCopiedEncodingRestoresTheText := by
  intro s t text copied hparams hw htext hexec hcode hcopied
  obtain ⟨hcap, hfit, hholds, hlen, -, hframe⟩ := htext.exec_encode_ok hparams hw hexec hcode
  obtain ⟨hlenA, -⟩ := hw
  have htparams : t.params = s.params := by rw [hframe]
  have hwrote : Wrote copied t.bitsOutLen (framed profile1 text s.pad.toNat) :=
    ⟨hlen.symm, fun i hi => (hcopied i (hlen ▸ hi)).trans (hholds i)⟩
  obtain ⟨u, hu, huleaves⟩ := exec_decode_of_fits
    (s := { t with mem := { t.mem with bitsIn := copied }, bitsInLen := t.bitsOutLen }) (htparams ▸ hparams)
    (htparams ▸ hlen ▸ hfit) hwrote (decodeBits_of_decodesTo (htext.decodesTo_framed s.pad.toNat))
    (htparams ▸ hlenA ▸ hcap)
  have hstatus := huleaves.status_eq
  obtain ⟨huholds, hulen, -, -⟩ := huleaves
  exact ⟨u, hu, by rw [hstatus]; decide, BitVec.eq_of_toNat_eq (hulen.trans hlenA), huholds⟩

end Sys2Proof.Machine

/-! The emitter: the runs of a bit, a pass as its bits in order, and how many samples a pass appends
(43_synth.md R97 to R101, R108, R111). -/

namespace Sys2Proof.Machine

/-! ## A bit -/

/-- A 1 bit's two half runs (43_synth.md R99). -/
theorem emitBit_true (spb : Nat) (amp : Int) :
    emitBit spb amp true =
      (List.replicate (spb / 4) (BitVec.ofInt 16 (-amp)) ++ List.replicate (spb / 4) (BitVec.ofInt 16 amp), amp) := by
  simp [emitBit, bitRuns, emitRuns, halfRun, sext16]

/-- A 0 bit's full run (43_synth.md R100). -/
theorem emitBit_false (spb : Nat) (amp : Int) :
    emitBit spb amp false = (List.replicate (spb / 2) (BitVec.ofInt 16 (-amp)), -amp) := by
  simp [emitBit, bitRuns, emitRuns, fullRun, sext16]

/-- Settles O38, by the runs of each bit. -/
theorem bitsEmitTheirRuns : Obligations.BitsEmitTheirRuns :=
  fun spb amp => ⟨emitBit_true spb amp, emitBit_false spb amp⟩

theorem length_emitBit_false (spb : Nat) (amp : Int) : (emitBit spb amp false).1.length = spb / 2 := by
  rw [emitBit_false, List.length_replicate]

theorem length_emitBit_true (spb : Nat) (amp : Int) : (emitBit spb amp true).1.length = 2 * (spb / 4) := by
  rw [emitBit_true, List.length_append, List.length_replicate, List.length_replicate, Nat.two_mul]

/-- Settles O41: the two counts are compared by the remainder of SPB by 4. -/
theorem bitPeriodsAreEqualExactlyForSpbModFour : Obligations.BitPeriodsAreEqualExactlyForSpbModFour := by
  intro spb amp
  refine ⟨length_emitBit_false spb amp, length_emitBit_true spb amp, ?_,
    ⟨length_emitBit_false 15 amp, length_emitBit_true 15 amp⟩, fun _ => rfl, ⟨rfl, fun _ _ => rfl⟩, rfl, rfl⟩
  rw [length_emitBit_false, length_emitBit_true]
  omega

/-! ## A pass -/

@[simp] theorem emitPass_nil (spb : Nat) (amp : Int) : emitPass spb amp [] = ([], amp) := rfl

theorem emitPass_cons (spb : Nat) (amp : Int) (bit : Bit) (bits : List Bit) :
    emitPass spb amp (bit :: bits) =
      ((emitBit spb amp bit).1 ++ (emitPass spb (emitBit spb amp bit).2 bits).1,
        (emitPass spb (emitBit spb amp bit).2 bits).2) := rfl

theorem emitPass_singleton (spb : Nat) (amp : Int) (bit : Bit) : emitPass spb amp [bit] = emitBit spb amp bit := by
  simp [emitPass_cons]

/-- A pass over joined bit sequences is the two passes, the second from the AMP the first leaves. -/
theorem emitPass_append (spb : Nat) (amp : Int) (bits more : List Bit) :
    emitPass spb amp (bits ++ more) =
      ((emitPass spb amp bits).1 ++ (emitPass spb (emitPass spb amp bits).2 more).1,
        (emitPass spb (emitPass spb amp bits).2 more).2) := by
  induction bits generalizing amp with
  | nil => rfl
  | cons bit bits ih => simp only [List.cons_append, emitPass_cons, ih, List.append_assoc]

theorem bitSum_le_length (bits : List Bit) : bitSum bits ≤ bits.length := by
  induction bits with
  | nil => exact Nat.le_refl 0
  | cons bit bits ih =>
    have hbit := Bool.toNat_le bit
    simp only [bitSum, List.length_cons]
    omega

/-- The 0 bits after a 1 bit are all of the sequence's. -/
theorem zeroCount_cons_true (bits : List Bit) :
    (true :: bits).length - bitSum (true :: bits) = bits.length - bitSum bits := by
  simp only [bitSum, List.length_cons, Bool.toNat_true]
  omega

/-- A 0 bit is one more than the 0 bits after it. -/
theorem zeroCount_cons_false (bits : List Bit) :
    (false :: bits).length - bitSum (false :: bits) = bits.length - bitSum bits + 1 := by
  have hle := bitSum_le_length bits
  simp only [bitSum, List.length_cons, Bool.toNat_false]
  omega

/-- The sample count of R101: two half runs to a 1 bit and a full run to a 0 bit. -/
theorem length_emitPass (spb : Nat) (amp : Int) (bits : List Bit) :
    (emitPass spb amp bits).1.length =
      2 * bitSum bits * (spb / 4) + (bits.length - bitSum bits) * (spb / 2) := by
  induction bits generalizing amp with
  | nil => simp [bitSum]
  | cons bit bits ih =>
    rw [emitPass_cons, List.length_append, ih]
    cases bit with
    | true =>
      rw [length_emitBit_true, zeroCount_cons_true, bitSum, Bool.toNat_true]
      ring
    | false =>
      rw [length_emitBit_false, zeroCount_cons_false, bitSum, Bool.toNat_false]
      ring

/-- AMP after a pass: a 1 bit keeps it and a 0 bit inverts it (43_synth.md R99, R100). -/
theorem emitPass_snd (spb : Nat) (amp : Int) (bits : List Bit) :
    (emitPass spb amp bits).2 = if (bits.length - bitSum bits) % 2 = 0 then amp else -amp := by
  induction bits generalizing amp with
  | nil => rfl
  | cons bit bits ih =>
    rw [emitPass_cons, ih]
    cases bit with
    | true => rw [emitBit_true, zeroCount_cons_true]
    | false =>
      rw [emitBit_false, zeroCount_cons_false, neg_neg]
      obtain heven | hodd := Nat.mod_two_eq_zero_or_one (bits.length - bitSum bits)
      · rw [if_pos heven, if_neg (by omega)]
      · rw [if_neg (by omega), if_pos (by omega)]

/-- Settles O39, by induction on the bits. -/
theorem passEmitsItsBitsInOrder : Obligations.PassEmitsItsBitsInOrder :=
  fun spb amp bits more =>
    ⟨emitPass_append spb amp bits more, emitPass_singleton spb amp, length_emitPass spb amp bits,
      emitPass_snd spb amp bits⟩

/-! ## Runs of no samples -/

theorem emitBit_true_of_le_three {spb : Nat} (h : spb ≤ 3) (amp : Int) : emitBit spb amp true = ([], amp) := by
  have hrun : spb / 4 = 0 := by omega
  simp [emitBit_true, hrun]

theorem emitBit_false_of_le_one {spb : Nat} (h : spb ≤ 1) (amp : Int) : emitBit spb amp false = ([], -amp) := by
  have hrun : spb / 2 = 0 := by omega
  simp [emitBit_false, hrun]

/-- With SPB <= 1 both run lengths are 0, and so is the sample count of a pass (43_synth.md R108). -/
theorem emitPass_fst_of_le_one {spb : Nat} (h : spb ≤ 1) (amp : Int) (bits : List Bit) :
    (emitPass spb amp bits).1 = [] := by
  have hhalf : spb / 4 = 0 := by omega
  have hfull : spb / 2 = 0 := by omega
  rw [← List.length_eq_zero_iff, length_emitPass, hhalf, hfull, Nat.mul_zero, Nat.mul_zero]

end Sys2Proof.Machine

/-! SYNTH, by what it reads: its first pass, the branch the sentinels choose, and the samples it finishes with
(43_synth.md R97, R102 to R110). -/

namespace Sys2Proof.Machine

/-! ## What SYNTH stores -/

/-- On a track SYNTH ends with samples that fit, all of them at a peak. -/
theorem exec_synth_ends {s t : State} {sel : BitVec 2} {rev : Bool} (hsel : sel ≠ 0#2)
    (h : exec (.synth sel rev) s = .next t) : SynthEnds s t := by
  obtain ⟨tr, htr, -⟩ := trackOf_alt hsel
  obtain ⟨hnone, -⟩ | ⟨-, hends⟩ := execSynth_next h
  · rw [htr] at hnone
    cases hnone
  · exact hends

theorem toInt_sext16_peak : (sext16 32767).toInt = 32767 ∧ (sext16 (-32767)).toInt = -32767 := by decide

/-- Settles O52: what SAMPLES holds is the stored sequence, whose samples are the encodings of the two peaks. -/
theorem samplesAreOnlyPlusOrMinusPeak : Obligations.SamplesAreOnlyPlusOrMinusPeak := by
  intro s t sel rev hsel h k v hv
  obtain ⟨w, out, c, rfl, -, hpeak, -⟩ := exec_synth_ends hsel h
  obtain ⟨hplus, hminus⟩ := toInt_sext16_peak
  obtain rfl | rfl := hpeak v (mem_of_bufRead_bufOfList hv)
  · exact .inl hplus
  · exact .inr hminus

/-- An error other than a failing secondary encode stores no samples (43_synth.md R107). -/
theorem exec_synth_error_stores_nothing {s t : State} {sel : BitVec 2} {rev : Bool} (hsel : sel ≠ 0#2)
    (h : exec (.synth sel rev) s = .next t) (hcode : statusCode t.status ≠ 0#4) (hstatus : t.status ≠ 0x11#8) :
    t.samplesLen = 0#32 ∧ ∀ k, bufRead t.mem.samples k = none := by
  obtain ⟨w, out, c, rfl, -, -, -, hends, -⟩ := exec_synth_ends hsel h
  rw [State.complete_status, statusCode_completedStatus, Ne, Code.toBits_eq_zero_iff] at hcode
  obtain hok | ⟨hillegal, hsrc⟩ | rfl := hends
  · exact absurd hok hcode
  · refine absurd ?_ hstatus
    rw [State.complete_status, completedStatus, hillegal, hsrc]
    rfl
  · exact ⟨rfl, fun _ => rfl⟩

/-- Storing samples and completing leaves what R34 says, when both numbers fit their 32-bit registers. -/
theorem synthLeaves_complete (s : State) (w : Working) {out : List Sample} {c : Completion}
    (hout : out.length < 2 ^ 32) (hindex : c.index < 2 ^ 32) :
    SynthLeaves s ((({ s with work := w } : State).storeSamples out).complete c)
      out (completedStatus c) c.index c.char :=
  ⟨bufOfList_holdsExactly out, (BitVec.toNat_ofNat ..).trans (Nat.mod_eq_of_lt hout),
    (BitVec.toNat_ofNat ..).trans (Nat.mod_eq_of_lt hindex), rfl⟩

/-- CapacityExceeded leaves no samples (43_synth.md R110). -/
theorem synthLeaves_capacity (s : State) (w : Working) (src : Bool) :
    SynthLeaves s ((({ s with work := w } : State).storeSamples []).complete (.capacity src))
      [] (completedStatus (.capacity src)) 0 0#8 :=
  synthLeaves_complete s w (by decide) (c := .capacity src) (Nat.two_pow_pos 32)

/-- SYNTH emits its passes, `out` in all, and then stores them if they fit; until then it has changed the working state
alone. -/
def SynthFinishesWith (s : State) (sel : BitVec 2) (rev : Bool) (out : List Sample) : Prop :=
  ∃ w : Working, exec (.synth sel rev) s = .next (State.synthFinish out { s with work := w })

section Finish

variable {s : State} {sel : BitVec 2} {rev : Bool} {out : List Sample}

theorem SynthFinishesWith.of_fits (h : SynthFinishesWith s sel rev out) (hparams : s.params.ok = true)
    (hfit : out.length ≤ s.params.samplesCap) :
    ∃ t, exec (.synth sel rev) s = .next t ∧ SynthLeaves s t out 0x00#8 0 0#8 := by
  obtain ⟨w, hexec⟩ := h
  obtain ⟨-, -, hcap⟩ := params_ok_bounds hparams
  refine ⟨_, hexec, ?_⟩
  unfold State.synthFinish
  rw [if_neg hfit.not_gt]
  exact synthLeaves_complete s { w with seq := .done } (hfit.trans_lt hcap) (c := .success) (by decide)

theorem SynthFinishesWith.of_tooLong (h : SynthFinishesWith s sel rev out)
    (hlong : s.params.samplesCap < out.length) :
    ∃ t, exec (.synth sel rev) s = .next t ∧ SynthLeaves s t [] 0x07#8 0 0#8 := by
  obtain ⟨w, hexec⟩ := h
  refine ⟨_, hexec, ?_⟩
  unfold State.synthFinish
  rw [if_pos hlong]
  exact synthLeaves_capacity s { w with seq := .done } false

end Finish

/-! ## The first pass -/

/-- The state in which SYNTH makes its second-pass tests, after a first pass over `b`. -/
def State.afterFirstPass (b : List Bit) (s : State) : State :=
  (s.beginSynth.runPass b).1.setSeq .maybeEmitSecondary

/-- The first pass changes the working state alone. -/
theorem afterFirstPass_eq (s : State) (b : List Bit) :
    s.afterFirstPass b = { s with work := (s.afterFirstPass b).work } := rfl

@[simp] theorem afterFirstPass_amp (s : State) (b : List Bit) :
    (s.afterFirstPass b).work.amp = (emitPass s.spb.toNat 32767 b).2 := rfl

@[simp] theorem afterFirstPass_passBits (s : State) (b : List Bit) : (s.afterFirstPass b).work.passBits = b := rfl

/-- The first pass, checked against SAMPLES_CAP before the second-pass tests (43_synth.md R110). -/
theorem synthPrimary_eq (t : Track) (rev : Bool) (b : List Bit) (s : State) :
    s.synthPrimary t rev b =
      if (emitPass s.spb.toNat 32767 b).1.length > s.params.samplesCap then
        .next ((s.beginSynth.runPass b).1.synthRaise false)
      else (s.afterFirstPass b).synthMaybeSecondary t rev (emitPass s.spb.toNat 32767 b).1 := rfl

section FirstPass

variable {s : State} {sel : BitVec 2} {rev : Bool} {b : List Bit} {tr : Track}

/-- SYNTH with an input length above capacity ends before it reads anything (43_synth.md R110). -/
theorem exec_synth_of_inputTooLong (htr : trackOf sel = some tr) (hlong : s.synthInputTooLong = true) :
    exec (.synth sel rev) s = .next (s.raise .samples (.capacity false)) := by
  change execSynth sel rev s = _
  simp only [execSynth, htr, hlong, if_true]

/-- SYNTH of a written bitstream, with every input length within capacity, begins with the pass over it. -/
theorem exec_synth_of_wrote (htr : trackOf sel = some tr) (hshort : s.synthInputTooLong = false)
    (hw : Wrote s.mem.bitsIn s.bitsInLen b) : exec (.synth sel rev) s = s.synthPrimary tr rev b := by
  change execSynth sel rev s = _
  simp only [execSynth, htr, hshort, inputBits_eq_some_iff.mpr hw, Bool.false_eq_true, if_false]

theorem SynthReady.exec_eq (h : SynthReady s b) (htr : trackOf sel = some tr) :
    exec (.synth sel rev) s =
      (s.afterFirstPass b).synthMaybeSecondary tr rev (emitPass s.spb.toNat 32767 b).1 := by
  obtain ⟨hbits, hA, hB, hw, hfit⟩ := h
  have hshort := (synthInputTooLong_eq_false_iff s).mpr ⟨hbits, hA, hB⟩
  rw [exec_synth_of_wrote htr hshort hw, synthPrimary_eq, if_neg hfit.not_gt]

end FirstPass

/-! ## The branch the sentinels choose -/

section Branches

variable {s : State} {sel : BitVec 2} {rev : Bool} {b : List Bit}

/-- The stop: SYNTH finishes with the first pass (43_synth.md R104). -/
theorem SynthReady.finishesWith_firstPass (h : SynthReady s b) (hsel : sel ≠ 0#2)
    (hB : DoesNotBeginWith s.mem.txtB s.txtBLen (altOf sel))
    (hstop : rev = false ∨ DoesNotBeginWith s.mem.txtA s.txtALen (altOf sel)) :
    SynthFinishesWith s sel rev (emitPass s.spb.toNat 32767 b).1 := by
  obtain ⟨tr, htr, halt⟩ := trackOf_alt hsel
  rw [← halt] at hB hstop
  have htestB : (s.afterFirstPass b).secondaryTest tr = some false := (secondaryTest_false_iff _ tr).mpr hB
  have htestA : (s.afterFirstPass b).stopTest tr rev = some true := (stopTest_true_iff _ tr rev).mpr hstop
  refine ⟨(s.afterFirstPass b).work, ?_⟩
  rw [h.exec_eq htr, State.synthMaybeSecondary, htestB, htestA, ← afterFirstPass_eq]

/-- The reverse branch emits PASS_BITS reversed, from the AMP the machine holds (43_synth.md R105, R106). -/
theorem synthReverse_eq (s : State) (out : List Sample) :
    s.synthReverse out =
      State.synthFinish (out ++ (emitPass s.spb.toNat s.work.amp s.work.passBits.reverse).1)
        (s.runPass s.work.passBits.reverse).1 := rfl

/-- The reverse branch: SYNTH finishes with the first pass and one over its bits reversed (43_synth.md R105, R106). -/
theorem SynthReady.finishesWith_reverse (h : SynthReady s b) (hsel : sel ≠ 0#2)
    (hB : DoesNotBeginWith s.mem.txtB s.txtBLen (altOf sel)) (hA : BeginsWith s.mem.txtA s.txtALen (altOf sel)) :
    SynthFinishesWith s sel true (twoPasses s.spb.toNat b b.reverse) := by
  obtain ⟨tr, htr, halt⟩ := trackOf_alt hsel
  rw [← halt] at hB hA
  have htestB : (s.afterFirstPass b).secondaryTest tr = some false := (secondaryTest_false_iff _ tr).mpr hB
  have htestA : (s.afterFirstPass b).stopTest tr true = some false := (stopTest_false_iff _ tr true).mpr ⟨rfl, hA⟩
  refine ⟨((s.afterFirstPass b).runPass b.reverse).1.work, ?_⟩
  rw [h.exec_eq htr, State.synthMaybeSecondary, htestB, htestA, synthReverse_eq, afterFirstPass_passBits,
    afterFirstPass_amp]
  rfl

/-- A written text begins with its first character. -/
theorem Wrote.beginsWith {buf : List (Nat × Byte)} {len : Word32} {text : List Byte} {c : Byte}
    (h : Wrote buf len text) (hc : text.head? = some c) : BeginsWith buf len c := by
  obtain ⟨hlen, hread⟩ := h
  obtain ⟨cs, rfl⟩ := List.head?_eq_some_iff.mp hc
  exact ⟨hlen ▸ Nat.succ_pos cs.length, hread 0 (Nat.succ_pos cs.length)⟩

variable {text : List Byte}

/-- The secondary branch: a written TXT_B that begins with the alternate sentinel is encoded (43_synth.md R103). -/
theorem SynthReady.exec_eq_secondary (h : SynthReady s b) (hsel : sel ≠ 0#2)
    (hw : Wrote s.mem.txtB s.txtBLen text) (halt : text.head? = some (altOf sel)) :
    exec (.synth sel rev) s =
      .next ((s.afterFirstPass b).synthSecondary (emitPass s.spb.toNat 32767 b).1 text) := by
  obtain ⟨tr, htr, heq⟩ := trackOf_alt hsel
  rw [← heq] at halt
  have htest : (s.afterFirstPass b).secondaryTest tr = some true :=
    (secondaryTest_true_iff _ tr).mpr (hw.beginsWith halt)
  have htext : (s.afterFirstPass b).textB = some text := wrote_iff_bufPrefix.mp hw
  rw [h.exec_eq htr, State.synthMaybeSecondary, htest, htext]

/-- A legal second-track text whose bitstream fits is emitted from the AMP the machine holds: encoding it keeps AMP
(43_synth.md R105, R106). -/
theorem synthSecondary_of_fits {p : Profile} (hs : Selects text p) (hl : AllLegal p text)
    (hfit : (framed p text 0).length ≤ s.params.bitsCap) (out : List Sample) :
    s.synthSecondary out text =
      State.synthFinish (out ++ (emitPass s.spb.toNat s.work.amp (secondTrackBits s.params p text)).1)
        (State.runPass (secondTrackBits s.params p text) { s with work := encodeWork text s.work }).1 := by
  unfold State.synthSecondary
  rw [encodeText_legal hs hl]
  dsimp only
  rw [if_neg hfit.not_gt, State.runPass_samples, encodeWork_amp]
  rfl

/-- SYNTH finishes with the first pass and one over the second track's bits (43_synth.md R105, R106). -/
theorem SynthReady.finishesWith_secondTrack (h : SynthReady s b) (hsel : sel ≠ 0#2)
    (hw : Wrote s.mem.txtB s.txtBLen text) (halt : text.head? = some (altOf sel)) {p : Profile}
    (hs : Selects text p) (hl : AllLegal p text) (hfit : (framed p text 0).length ≤ s.params.bitsCap) :
    SynthFinishesWith s sel rev (twoPasses s.spb.toNat b (secondTrackBits s.params p text)) := by
  refine ⟨(State.runPass (secondTrackBits s.params p text)
    { s with work := encodeWork text (s.afterFirstPass b).work }).1.work, ?_⟩
  rw [h.exec_eq_secondary hsel hw halt, synthSecondary_of_fits (s := s.afterFirstPass b) hs hl hfit,
    afterFirstPass_amp]
  rfl

/-- A second-track bitstream longer than BITS_CAP ends SYNTH with ERR_SRC = 1 (43_synth.md R110). -/
theorem SynthReady.secondTrack_tooLong (h : SynthReady s b) (hsel : sel ≠ 0#2)
    (hw : Wrote s.mem.txtB s.txtBLen text) (halt : text.head? = some (altOf sel)) {p : Profile}
    (hs : Selects text p) (hl : AllLegal p text) (hlong : s.params.bitsCap < (framed p text 0).length) :
    ∃ t, exec (.synth sel rev) s = .next t ∧ SynthLeaves s t [] 0x17#8 0 0#8 := by
  have hcap : (framed p text 0).length > (s.afterFirstPass b).params.bitsCap := hlong
  refine ⟨_, h.exec_eq_secondary hsel hw halt, ?_⟩
  unfold State.synthSecondary
  rw [encodeText_legal hs hl]
  dsimp only
  rw [if_pos hcap]
  exact synthLeaves_capacity s _ true

/-- A second-track text whose encoding fails ends SYNTH with that error and ERR_SRC = 1, and keeps the first pass
(43_synth.md R107). -/
theorem SynthReady.secondTrack_error (h : SynthReady s b) (hsel : sel ≠ 0#2) (hparams : s.params.ok = true)
    (hw : Wrote s.mem.txtB s.txtBLen text) (halt : text.head? = some (altOf sel)) {c : Completion}
    (herror : encodeText text 0 = .error c) (hindex : c.index < 2 ^ 32) :
    ∃ t, exec (.synth sel rev) s = .next t ∧
      SynthLeaves s t (emitPass s.spb.toNat 32767 b).1 (statusWord false true c.code.toBits) c.index c.char := by
  refine ⟨_, h.exec_eq_secondary hsel hw halt, ?_⟩
  obtain ⟨-, -, -, -, hfit⟩ := h
  obtain ⟨-, -, hcap⟩ := params_ok_bounds hparams
  unfold State.synthSecondary
  rw [herror]
  exact synthLeaves_complete s _ (hfit.trans_lt hcap) (c := { c with src := true }) hindex

end Branches

/-! ## The branches, settled -/

/-- Settles O42: the stop finishes with the first pass, which fits. -/
theorem synthStopsAfterTheFirstPass : Obligations.SynthStopsAfterTheFirstPass := by
  intro s sel rev b hparams hsel hready hB hstop
  have hfinish := hready.finishesWith_firstPass hsel hB hstop
  obtain ⟨-, -, -, -, hfit⟩ := hready
  exact hfinish.of_fits hparams hfit

/-- Settles O43: the reverse branch finishes with two passes that fit. -/
theorem synthAddsTheReversedPrimaryPass : Obligations.SynthAddsTheReversedPrimaryPass :=
  fun _ _ _ hparams hsel hready hB hA hfit => (hready.finishesWith_reverse hsel hB hA).of_fits hparams hfit

/-- Settles O44: the secondary branch encodes TXT_B and finishes with two passes that fit. -/
theorem synthAddsTheSecondTrackPass : Obligations.SynthAddsTheSecondTrackPass :=
  fun _ _ _ _ _ _ hparams hsel hready hw halt hs hl hbits hfit =>
    (hready.finishesWith_secondTrack hsel hw halt hs hl hbits).of_fits hparams hfit

/-- Settles O45: the secondary encode fails at `c` with the first pass kept, and no other error stores samples. -/
theorem failedSecondTrackKeepsTheFirstPass : Obligations.FailedSecondTrackKeepsTheFirstPass := by
  refine ⟨fun s sel rev b before after c p hparams hsel hready hw halt hs hl hc => ?_,
    fun s t sel rev hsel h hcode hstatus => exec_synth_error_stores_nothing hsel h hcode hstatus⟩
  have hindex : before.length < 2 ^ 32 := hw.lt_two_pow_of_le_length (by simp)
  have hstatus : statusWord false true Code.illegalCharacter.toBits = 0x11#8 := rfl
  rw [← hstatus]
  exact hready.secondTrack_error hsel hparams hw halt (encodeText_illegal hs hl hc 0) hindex

/-- Settles O46, check by check in the order in which SYNTH makes them. -/
theorem synthRejectsWhatExceedsCapacity : Obligations.SynthRejectsWhatExceedsCapacity := by
  intro s sel rev hsel
  obtain ⟨tr, htr, -⟩ := trackOf_alt hsel
  refine ⟨fun hlong => ?input, fun b hbits hA hB hw hlong => ?firstPass,
    fun b text p hready hw halt hs hl => ⟨fun hlong => ?bitstream, fun hfit hlong => ?secondary⟩,
    fun b hready hB hrev hA hlong => ?reverse⟩
  case input =>
    have htooLong : s.synthInputTooLong = true := by
      rw [← Bool.not_eq_false, synthInputTooLong_eq_false_iff]
      omega
    exact ⟨_, exec_synth_of_inputTooLong htr htooLong, synthLeaves_capacity s s.work false⟩
  case firstPass =>
    have hshort := (synthInputTooLong_eq_false_iff s).mpr ⟨hbits, hA, hB⟩
    refine ⟨_, ?_, synthLeaves_capacity s { (s.beginSynth.runPass b).1.work with seq := .done } false⟩
    rw [exec_synth_of_wrote htr hshort hw, synthPrimary_eq, if_pos hlong]
    rfl
  case bitstream => exact hready.secondTrack_tooLong hsel hw halt hs hl hlong
  case secondary => exact (hready.finishesWith_secondTrack hsel hw halt hs hl hfit).of_tooLong hlong
  case reverse =>
    subst hrev
    exact (hready.finishesWith_reverse hsel hB hA).of_tooLong hlong

/-! ## SYNTH when SPB <= 1 -/

section TinySpb

variable {s t : State}

theorem synthFinish_nil_samplesLen (s : State) : (s.synthFinish []).samplesLen = 0#32 := by
  unfold State.synthFinish
  split <;> rfl

theorem synthReverse_nil_samplesLen (hspb : s.spb.toNat ≤ 1) : (s.synthReverse []).samplesLen = 0#32 := by
  rw [synthReverse_eq, emitPass_fst_of_le_one hspb]
  exact synthFinish_nil_samplesLen _

theorem synthSecondary_nil_samplesLen (hspb : s.spb.toNat ≤ 1) (text : List Byte) :
    (s.synthSecondary [] text).samplesLen = 0#32 := by
  unfold State.synthSecondary
  cases encodeText text 0 with
  | error c => rfl
  | ok r =>
    dsimp only
    split
    · rfl
    · rw [State.runPass_samples, emitPass_fst_of_le_one hspb]
      exact synthFinish_nil_samplesLen _

/-- What follows the first pass when it answers: the secondary branch, the stop, or the reverse branch. -/
theorem synthMaybeSecondary_cases {tr : Track} {rev : Bool} {out : List Sample}
    (h : s.synthMaybeSecondary tr rev out = .next t) :
    (∃ text, t = s.synthSecondary out text) ∨ t = s.synthFinish out ∨ t = s.synthReverse out := by
  unfold State.synthMaybeSecondary at h
  split at h
  · cases h
  · split at h <;> cases h
    exact .inl ⟨_, rfl⟩
  · split at h <;> cases h
    · exact .inr (.inl rfl)
    · exact .inr (.inr rfl)

/-- How SYNTH on a track answers: with an input too long, or by its first pass over BITS_IN. -/
theorem exec_synth_cases {sel : BitVec 2} {rev : Bool} {tr : Track} (htr : trackOf sel = some tr)
    (h : exec (.synth sel rev) s = .next t) :
    t = s.raise .samples (.capacity false) ∨ ∃ b, s.synthPrimary tr rev b = .next t := by
  cases hlong : s.synthInputTooLong with
  | true =>
    rw [exec_synth_of_inputTooLong htr hlong] at h
    cases h
    exact .inl rfl
  | false =>
    cases hb : s.inputBits with
    | none => simp [exec, execSynth, htr, hlong, hb] at h
    | some b => exact .inr ⟨b, (exec_synth_of_wrote htr hlong (inputBits_eq_some_iff.mp hb)).symm.trans h⟩

/-- With SPB <= 1 no pass appends a sample, so that SYNTH on a track has none to store (43_synth.md R108). -/
theorem exec_synth_samplesLen_of_le_one {sel : BitVec 2} {rev : Bool} {tr : Track} (hspb : s.spb.toNat ≤ 1)
    (htr : trackOf sel = some tr) (h : exec (.synth sel rev) s = .next t) : t.samplesLen = 0#32 := by
  obtain rfl | ⟨b, hprimary⟩ := exec_synth_cases htr h
  · rfl
  rw [synthPrimary_eq, emitPass_fst_of_le_one hspb, List.length_nil,
    if_neg (Nat.not_lt_zero _)] at hprimary
  have hspb' : (s.afterFirstPass b).spb.toNat ≤ 1 := hspb
  obtain ⟨text, rfl⟩ | rfl | rfl := synthMaybeSecondary_cases hprimary
  · exact synthSecondary_nil_samplesLen hspb' text
  · exact synthFinish_nil_samplesLen _
  · exact synthReverse_nil_samplesLen hspb'

end TinySpb

/-- Settles O40: the runs are empty, and a SYNTH that completes with OK is on a track. -/
theorem tinySamplesPerBitEmitNothing : Obligations.TinySamplesPerBitEmitNothing := by
  refine ⟨fun spb amp => ⟨fun h => emitBit_true_of_le_three h amp,
    fun h => ⟨emitBit_false_of_le_one h amp, emitPass_fst_of_le_one h amp⟩⟩, fun s t sel rev hspb h hcode => ?_⟩
  obtain ⟨-, rfl⟩ | ⟨⟨tr, htr⟩, -⟩ := execSynth_next h
  · exact absurd hcode (by rw [State.completeIllegal_eq, State.complete_status]; decide)
  · exact exec_synth_samplesLen_of_le_one hspb htr h

end Sys2Proof.Machine

/-! How a command ends (60_exceptions.md R113, R114, R117) and the step in which nothing is issued (R129). -/

namespace Sys2Proof.Machine

variable {s t : State}

/-! ## Completions -/

/-- Every command that answers ends in one completion, whose record fits its code (60_exceptions.md R114). -/
theorem exec_completes {i : Instr} (h : exec i s = .next t) : ∃ u c, t = State.complete c u ∧ c.Fits := by
  cases i with
  | resolve sel =>
    have hr : execResolve sel s = .next t := h
    obtain ⟨_, hn⟩ | ⟨_, _, hn⟩ := execResolve_cases sel s
    all_goals
      rw [hn] at hr
      cases hr
    · exact ⟨_, _, rfl, Completion.fits_illegal⟩
    · exact ⟨_, _, rfl, Completion.fits_success⟩
  | encode =>
    obtain ⟨_, _, _, c, rfl, _, _, hc, _⟩ := execEncode_next h
    exact ⟨_, c, rfl, hc⟩
  | decode =>
    obtain ⟨_, _, c, rfl, _, hc, _⟩ := execDecode_next h
    exact ⟨_, c, rfl, hc⟩
  | synth sel rev =>
    obtain ⟨_, rfl⟩ | ⟨_, _, _, c, rfl, _, _, hc, _⟩ := execSynth_next h
    · exact ⟨_, _, rfl, Completion.fits_illegal⟩
    · exact ⟨_, c, rfl, hc⟩

/-- A completion that fits its code leaves one of the codes 0 to 8 in STATUS (60_exceptions.md R113). -/
theorem Completion.Fits.statusCode_le_eight {c : Completion} (h : c.Fits) (s : State) :
    (statusCode (s.complete c).status).toNat ≤ 8 := by
  rw [State.complete_status, statusCode_completedStatus]
  exact Code.toBits_le_eight h.notReset

/-- Settles O51, from what one completion that fits its code leaves in STATUS and in the error record. -/
theorem completionsLeaveAFittingErrorRecord : Obligations.CompletionsLeaveAFittingErrorRecord := by
  intro i s t h
  obtain ⟨u, c, rfl, hc⟩ := exec_completes h
  exact ⟨busy_complete u c, statusReserved_completedStatus c, hc.statusCode_le_eight u, hc.recordLegal u⟩

/-! ## Illegal words and the idle block -/

/-- The completion of an illegal word, field by field (60_exceptions.md R117). -/
theorem completeIllegal_fields (s : State) :
    s.completeIllegal = { s with status := 0x08#8, errIndex := 0#32, errChar := 0#8 } := rfl

/-- Settles O4: the core's step on a word without a command is the completion of an illegal word. -/
theorem illegalWordCompletesWithIllegalCommand : Obligations.IllegalWordCompletesWithIllegalCommand := by
  intro s hcore hd
  rw [step_of_coreMovesNext hcore, execute_of_illegal hd, completeIllegal_fields]

/-- With BUSY = 0 and no input pending nobody moves (60_exceptions.md R129). -/
theorem turn_of_nothing_pending (hb : s.busy = false) (hi : s.inputs = []) : s.turn = .idle := by
  unfold State.turn
  rw [hi, hb]
  rfl

/-- Settles O17: the step of an idle block is the third branch of `step`, which keeps the state (log 23). -/
theorem idleBlockKeepsItsState : Obligations.IdleBlockKeepsItsState := by
  intro s hb hi
  unfold step
  rw [turn_of_nothing_pending hb hi]

end Sys2Proof.Machine

/-! The life of an issued command (70_reset_and_hazards.md R132, R133, R135, R136): the execute step, the polls before it,
and that a command whose inputs are written completes. -/

namespace Sys2Proof.Machine

variable {s t : State}

/-! ## The execute step -/

/-- A word that decodes runs its command (70_reset_and_hazards.md R132). -/
theorem execute_of_decoded {i : Instr} (h : decodeCmd s.cmd = some i) : execute s = exec i s := by
  unfold execute
  rw [h]

/-- Settles O6: the core's step is the execute step, and the word in CMD decodes. -/
theorem stepExecutesTheDecodedCommand : Obligations.StepExecutesTheDecodedCommand :=
  fun _ _ hcore hd => (step_of_coreMovesNext hcore).trans (execute_of_decoded hd)

/-- BUSY is 0 once a command has completed (70_reset_and_hazards.md R133). -/
theorem exec_clears_busy {i : Instr} (h : exec i s = .next t) : t.busy = false := by
  obtain ⟨u, c, rfl, _⟩ := exec_completes h
  exact busy_complete u c

/-- Whatever word is issued: an illegal one completes too (60_exceptions.md R117). -/
theorem execute_clears_busy (h : execute s = .next t) : t.busy = false := by
  cases hd : decodeCmd s.cmd with
  | none =>
    rw [execute_of_illegal hd] at h
    cases h
    exact busy_complete s .illegal
  | some i => exact exec_clears_busy ((execute_of_decoded hd).symm.trans h)

/-! ## The polls before it -/

/-- What `n` polls of STATUS leave, with `rest` still to come: the block as it is, and their readings. -/
def State.afterPolls (n : Nat) (rest : List Input) (s : State) : State :=
  { s with inputs := rest, seen := s.seen ++ List.replicate n (.reg 1 (s.status.setWidth 32)) }

theorem afterPolls_zero {rest : List Input} (h : s.inputs = rest) : s.afterPolls 0 rest = s := by
  subst h
  simp [State.afterPolls]

/-- The first poll's reading comes before those of the polls after it. -/
theorem afterPolls_succ (n : Nat) (pending rest : List Input) (s : State) :
    (s.afterPolls 1 pending).afterPolls n rest = s.afterPolls (n + 1) rest := by
  simp [State.afterPolls, List.replicate_succ]

theorem run_succ_of_step (h : step s = .next t) (k : Nat) :
    Host.Core.run Sys2Proof.core (k + 1) s = Host.Core.run Sys2Proof.core k t := by
  rw [run_succ, h]

theorem run_one (s : State) : Host.Core.run Sys2Proof.core 1 s = step s := by
  rw [run_succ]
  cases step s <;> rfl

/-- A run over `n` pending polls goes on in the state they leave, whatever BUSY is. -/
theorem run_polls {n : Nat} {rest : List Input} (h : s.inputs = List.replicate n (.regRead 1) ++ rest) (k : Nat) :
    Host.Core.run Sys2Proof.core (n + k) s = Host.Core.run Sys2Proof.core k (s.afterPolls n rest) := by
  induction n generalizing s with
  | zero =>
    have hnone : s.afterPolls 0 rest = s := afterPolls_zero h
    rw [Nat.zero_add, hnone]
  | succ n ih =>
    have hpoll : step s = .next (s.afterPolls 1 (List.replicate n (.regRead 1) ++ rest)) := step_of_status_read h
    rw [Nat.succ_add, run_succ_of_step hpoll, ih rfl, afterPolls_succ]

/-- Settles O9: the polls by induction on their number, then the core's turn, which every completion ends with BUSY
clear. -/
theorem issuedCommandIsExecutedAfterThePolls : Obligations.IssuedCommandIsExecutedAfterThePolls := by
  intro s n rest hb hi hrest
  have hcore : CoreMovesNext (s.afterPolls n rest) := ⟨hb, hrest⟩
  have hexecute : Host.Core.run Sys2Proof.core (n + 1) s = execute (s.afterPolls n rest) :=
    (run_polls hi 1).trans ((run_one _).trans (step_of_coreMovesNext hcore))
  exact ⟨run_polls hi 0, hexecute, fun t ht => execute_clears_busy (hexecute.symm.trans ht)⟩

/-! ## Completion on written inputs -/

/-- The elements that SYNTH reads of the two texts lie below their length registers (43_synth.md R103, R104). -/
theorem SecondPassUnwritten.unwritten_text {alt : Byte} {rev : Bool} (h : SecondPassUnwritten s alt rev) :
    Unwritten s.mem.txtA s.txtALen.toNat ∨ Unwritten s.mem.txtB s.txtBLen.toNat := by
  obtain ⟨hlen, hnone⟩ | ⟨_, hB⟩ | ⟨_, _, hlen, hnone⟩ := h
  · exact .inr ⟨0, hlen, hnone⟩
  · exact .inr hB
  · exact .inl ⟨0, hlen, hnone⟩

/-- SYNTH answers on written inputs, and without a track it reads none of them (log 14). -/
theorem execSynth_completes (sel : BitVec 2) (rev : Bool) (hA : ¬Unwritten s.mem.txtA s.txtALen.toNat)
    (hB : ¬Unwritten s.mem.txtB s.txtBLen.toNat) (hbits : ¬Unwritten s.mem.bitsIn s.bitsInLen.toNat) :
    ∃ t, execSynth sel rev s = .next t := by
  cases ht : trackOf sel with
  | none => exact ⟨s.completeIllegal, by simp [execSynth, ht]⟩
  | some tr =>
    refine (execSynth_faults ht rev s).next ?_
    rintro ⟨_, hbits' | ⟨_, _, hsecond⟩⟩
    · exact hbits hbits'
    · exact hsecond.unwritten_text.elim hA hB

/-- Settles O47: no command meets its fault on written inputs, and a command that answers clears BUSY. -/
theorem commandsCompleteOnWrittenInputs : Obligations.CommandsCompleteOnWrittenInputs := by
  intro i s hA hB hbits
  have hnext : ∃ t, exec i s = .next t := by
    cases i with
    | resolve sel => exact (execResolve_faults sel s).next id
    | encode => exact (execEncode_faults s).next fun ⟨_, h⟩ => hA h
    | decode => exact (execDecode_faults s).next fun ⟨_, h⟩ => hbits h
    | synth sel rev => exact execSynth_completes sel rev hA hB hbits
  obtain ⟨t, ht⟩ := hnext
  exact ⟨t, ht, exec_clears_busy ht⟩

end Sys2Proof.Machine
